-- ==== Sys2Proof/Word.lean ====
section
/-! DEFINITION. The plainest data of the spec (`00_scope.md` R8): bytes, byte sequences and texts.
A byte is what the spec treats as bits, so it is a bit vector; a byte sequence is a finite list indexed from 0;
lengths and counts are natural numbers that never wrap. -/

namespace Sys2Proof

/-- R8: a byte is an integer 0 to 255. -/
abbrev Byte := BitVec 8

/-- R8: a byte sequence is a finite list of bytes indexed from 0. -/
abbrev Bytes := List Byte

/-- R8, R201, R206: a finite sequence of characters (a password, a text block). A character is one text code unit and is
given here by its code, a natural number. -/
abbrev Text := List Nat

end Sys2Proof
end

