-- ==== Sys2Proof/Config.lean ====
section
/-! DEFINITION. What is fixed for the machine (`00_scope.md` R2, R7) and what the spec leaves open: the two buffer
capacities, which an implementation chooses, and the bytes the random source answers, which nothing chooses. The open
ones are constants with no body, so no proof can rest on a value of theirs. -/

namespace Sys2Proof

namespace Config

/-- R7 `KEYLEN`: key length in bytes. -/
abbrev keyLen : Nat := 32
/-- R7 `IVLEN`: IV length in bytes. -/
abbrev ivLen : Nat := 16
/-- R7 `BLK`: cipher block size in bytes. -/
abbrev blk : Nat := 16
/-- R7 `NK`: key length in 32-bit words. -/
abbrev nk : Nat := 8
/-- R7 `NR`: number of AES rounds. -/
abbrev nr : Nat := 14
/-- R7 `PADMIN`: the least pad count. -/
abbrev padMin : Nat := 1
/-- R7 `PADMAX`: the greatest pad count. -/
abbrev padMax : Nat := 16
/-- R7 `OVERHEAD`: bytes the splitter reserves per chunk, `IVLEN + KEYLEN`. -/
abbrev overhead : Nat := 48
/-- R7 `PWMIN`: minimum password length in characters. -/
abbrev pwMin : Nat := 6
/-- R7 `ALPHALEN`: size of the key-stretch alphabet. -/
abbrev alphaLen : Nat := 52
/-- R7 `STRETCHMOD`: modulus of the stretch index. -/
abbrev stretchMod : Nat := 32
/-- R7 `DEFAULT_CAPACITY`: the conventional chunk capacity of the host layer. -/
abbrev defaultCapacity : Nat := 1024

/-- R7, R62 (open): by how much `IBUF_CAP` exceeds its least legal value 32 (log entry 2). -/
opaque ibufExtra : Nat

/-- R7, R62 (open): by how much `OBUF_CAP` exceeds its least legal value `IBUF_CAP + 32` (log entry 2). -/
opaque obufExtra : Nat

/-- R12, R182 (free values): the `i`-th byte the random source answers, counted over the whole life of the machine,
where no RNG directive has fixed it. Nothing is known of it (log entry 3). -/
opaque rngByte : Nat → Byte

end Config

/-- R7, R33: the two open capacities, as an argument of the operations that depend on them. -/
structure Params where
  /-- `IBUF_CAP`: capacity of the input buffer in bytes. -/
  ibufCap : Nat
  /-- `OBUF_CAP`: capacity of the output buffer in bytes. -/
  obufCap : Nat
  deriving DecidableEq, Repr

/-- The capacities of this machine: some pair that R62 allows, and nothing more is known of it. Every legal pair is
of this form. -/
def Config.params : Params where
  ibufCap := Config.ibufExtra + 32
  obufCap := Config.obufExtra + (Config.ibufExtra + 64)

end Sys2Proof
end

