-- ==== Sys2Proof/Syntax.lean ====
section
/-! DEFINITION. The command set `CEVCMD-1` (`30_encoding.md` R80 to R82): one constructor for each row of
`spec/opcode_table.json`. No command has an explicit operand: the data operand is the whole of `IBUF`, the key operand
is `KEY`, the random operand of ENC is what the random source answers. -/

namespace Sys2Proof

/-- R81: the four commands. Every other command word is reserved and is no instruction (R83, R175). -/
inductive Instr where
  /-- `KEYLD`, 0x01: load the key from the 32 bytes in `IBUF` (R171). -/
  | keyld
  /-- `ENC`, 0x02: encrypt the chunk in `IBUF` into one frame (R172). -/
  | enc
  /-- `DEC`, 0x03: parse and decrypt the frame in `IBUF` into one chunk (R173). -/
  | dec
  /-- `CLR`, 0x04: clear everything (R174). -/
  | clr
  deriving DecidableEq, Repr

end Sys2Proof
end

