-- ==== Sys2Proof/WellFormed.lean ====
section
/-! DEFINITION. What is well formed: a command, a command word, a pair of buffer capacities. -/

namespace Sys2Proof

/-- R82, R84: a command has no register specifier, immediate, mode or length field, so every term of `Instr` is well
formed; what could be ill formed is the word that is to stand for one (`commandWordDefined`). -/
def Instr.wellFormed : Instr → Bool
  | .keyld => true
  | .enc => true
  | .dec => true
  | .clr => true

/-- R81, R83: the command words with a meaning of their own are 0x01 to 0x04; 0x00 and 0x05 to 0xFF are reserved. -/
def commandWordDefined (w : Byte) : Bool := 0x01#8 ≤ w && w ≤ 0x04#8

/-- R7, R62: the pairs of capacities an implementation may choose. -/
def Params.wellFormed (p : Params) : Bool := 32 ≤ p.ibufCap && p.ibufCap + 32 ≤ p.obufCap

end Sys2Proof
end

