-- ==== Sys2Proof/Decode.lean ====
section
/-! DEFINITION. Decoding a command word (`30_encoding.md` R80, R81, R83) and, after it, encoding. One length, 8 bits;
one field, `OPC` = bits 7:0; a word that is no command is rejected by name. -/

namespace Sys2Proof

/-- Why some bytes are no command. -/
inductive DecodeError where
  /-- R83: the word is reserved (0x00, 0x05 to 0xFF). -/
  | reservedWord (w : Byte)
  /-- There is no byte to decode. -/
  | noWord
  deriving DecidableEq, Repr

/-- R81: the opcode map, on one command word. -/
def decodeWord (w : Byte) : Except DecodeError Instr :=
  if w = 0x01 then .ok .keyld
  else if w = 0x02 then .ok .enc
  else if w = 0x03 then .ok .dec
  else if w = 0x04 then .ok .clr
  else .error (.reservedWord w)

/-- R80: every command is one byte, so decoding takes the first byte and leaves the rest. -/
def decode : Bytes → Except DecodeError (Instr × Bytes)
  | [] => .error .noWord
  | w :: rest =>
    match decodeWord w with
    | .ok i => .ok (i, rest)
    | .error e => .error e

/-- R81: the command word of each command. -/
def encode : Instr → Byte
  | .keyld => 0x01
  | .enc => 0x02
  | .dec => 0x03
  | .clr => 0x04

/-- The `n` bytes of a number of the opcode table, bit 0 in the first byte's least significant place. -/
def tableBytes : Nat → Nat → Bytes
  | 0, _ => []
  | n + 1, w => BitVec.ofNat 8 w :: tableBytes n (w / 256)

/-- How many bytes an instruction of `nbits` table bits has: a command is at least the one byte of R80. -/
def tableByteCount (nbits : Nat) : Nat := max 1 ((nbits + 7) / 8)

/-- The instruction this decoder reads from an opcode-table word of `nbits` bits; the bits above `nbits` are 0. It
answers only when the bytes are exactly one command (log entry 18). -/
def decodeTableWord (nbits w : Nat) : Option Instr :=
  match decode (tableBytes (tableByteCount nbits) (w % 2 ^ nbits)) with
  | .ok (i, []) => some i
  | .ok (_, _ :: _) => none
  | .error _ => none

end Sys2Proof
end

