-- ==== Sys2Proof/Machine/Aes.lean ====
section
/-! DEFINITION. The AES-256 block cipher as pure functions (`40_aes256.md` R101 to R115). The spec marks the whole
algorithm as general knowledge (G1) and states it in full; this file follows its rules, not another source (log entry 9).
A 4-byte word of the key schedule and a column of the cipher state are the same thing (R106), so both are `Col`. -/

namespace Sys2Proof.Machine

/-! ## Arithmetic in GF(2^8) -/

/-- R101 `xtime`: multiplication by `x`, reduced modulo 0x11B. -/
def xtime (a : Byte) : Byte :=
  (a <<< 1) ^^^ (if a.getLsbD 7 then 0x1B else 0x00)

/-- R101 `xtime^i`: `xtime` applied `i` times. -/
def xtimes : Nat → Byte → Byte
  | 0, a => a
  | i + 1, a => xtime (xtimes i a)

/-- R101: the term of `gmul a b` for bit `i` of `b`. -/
def gterm (a b : Byte) (i : Nat) : Byte :=
  if b.getLsbD i then xtimes i a else 0

/-- R101 `gmul`: the exclusive or, over the bits `i` of `b` that are 1, of `xtime^i(a)`. -/
def gmul (a b : Byte) : Byte :=
  gterm a b 0 ^^^ gterm a b 1 ^^^ gterm a b 2 ^^^ gterm a b 3 ^^^
    gterm a b 4 ^^^ gterm a b 5 ^^^ gterm a b 6 ^^^ gterm a b 7

/-! ## The S-box and its inverse -/

/-- R102 `SBOX`: row = high hex digit, column = low hex digit. -/
def sboxRows : List (List Byte) := [
    [0x63, 0x7c, 0x77, 0x7b, 0xf2, 0x6b, 0x6f, 0xc5, 0x30, 0x01, 0x67, 0x2b, 0xfe, 0xd7, 0xab, 0x76],
    [0xca, 0x82, 0xc9, 0x7d, 0xfa, 0x59, 0x47, 0xf0, 0xad, 0xd4, 0xa2, 0xaf, 0x9c, 0xa4, 0x72, 0xc0],
    [0xb7, 0xfd, 0x93, 0x26, 0x36, 0x3f, 0xf7, 0xcc, 0x34, 0xa5, 0xe5, 0xf1, 0x71, 0xd8, 0x31, 0x15],
    [0x04, 0xc7, 0x23, 0xc3, 0x18, 0x96, 0x05, 0x9a, 0x07, 0x12, 0x80, 0xe2, 0xeb, 0x27, 0xb2, 0x75],
    [0x09, 0x83, 0x2c, 0x1a, 0x1b, 0x6e, 0x5a, 0xa0, 0x52, 0x3b, 0xd6, 0xb3, 0x29, 0xe3, 0x2f, 0x84],
    [0x53, 0xd1, 0x00, 0xed, 0x20, 0xfc, 0xb1, 0x5b, 0x6a, 0xcb, 0xbe, 0x39, 0x4a, 0x4c, 0x58, 0xcf],
    [0xd0, 0xef, 0xaa, 0xfb, 0x43, 0x4d, 0x33, 0x85, 0x45, 0xf9, 0x02, 0x7f, 0x50, 0x3c, 0x9f, 0xa8],
    [0x51, 0xa3, 0x40, 0x8f, 0x92, 0x9d, 0x38, 0xf5, 0xbc, 0xb6, 0xda, 0x21, 0x10, 0xff, 0xf3, 0xd2],
    [0xcd, 0x0c, 0x13, 0xec, 0x5f, 0x97, 0x44, 0x17, 0xc4, 0xa7, 0x7e, 0x3d, 0x64, 0x5d, 0x19, 0x73],
    [0x60, 0x81, 0x4f, 0xdc, 0x22, 0x2a, 0x90, 0x88, 0x46, 0xee, 0xb8, 0x14, 0xde, 0x5e, 0x0b, 0xdb],
    [0xe0, 0x32, 0x3a, 0x0a, 0x49, 0x06, 0x24, 0x5c, 0xc2, 0xd3, 0xac, 0x62, 0x91, 0x95, 0xe4, 0x79],
    [0xe7, 0xc8, 0x37, 0x6d, 0x8d, 0xd5, 0x4e, 0xa9, 0x6c, 0x56, 0xf4, 0xea, 0x65, 0x7a, 0xae, 0x08],
    [0xba, 0x78, 0x25, 0x2e, 0x1c, 0xa6, 0xb4, 0xc6, 0xe8, 0xdd, 0x74, 0x1f, 0x4b, 0xbd, 0x8b, 0x8a],
    [0x70, 0x3e, 0xb5, 0x66, 0x48, 0x03, 0xf6, 0x0e, 0x61, 0x35, 0x57, 0xb9, 0x86, 0xc1, 0x1d, 0x9e],
    [0xe1, 0xf8, 0x98, 0x11, 0x69, 0xd9, 0x8e, 0x94, 0x9b, 0x1e, 0x87, 0xe9, 0xce, 0x55, 0x28, 0xdf],
    [0x8c, 0xa1, 0x89, 0x0d, 0xbf, 0xe6, 0x42, 0x68, 0x41, 0x99, 0x2d, 0x0f, 0xb0, 0x54, 0xbb, 0x16]
  ]

/-- R103 `INVSBOX`: same layout. -/
def invSboxRows : List (List Byte) := [
    [0x52, 0x09, 0x6a, 0xd5, 0x30, 0x36, 0xa5, 0x38, 0xbf, 0x40, 0xa3, 0x9e, 0x81, 0xf3, 0xd7, 0xfb],
    [0x7c, 0xe3, 0x39, 0x82, 0x9b, 0x2f, 0xff, 0x87, 0x34, 0x8e, 0x43, 0x44, 0xc4, 0xde, 0xe9, 0xcb],
    [0x54, 0x7b, 0x94, 0x32, 0xa6, 0xc2, 0x23, 0x3d, 0xee, 0x4c, 0x95, 0x0b, 0x42, 0xfa, 0xc3, 0x4e],
    [0x08, 0x2e, 0xa1, 0x66, 0x28, 0xd9, 0x24, 0xb2, 0x76, 0x5b, 0xa2, 0x49, 0x6d, 0x8b, 0xd1, 0x25],
    [0x72, 0xf8, 0xf6, 0x64, 0x86, 0x68, 0x98, 0x16, 0xd4, 0xa4, 0x5c, 0xcc, 0x5d, 0x65, 0xb6, 0x92],
    [0x6c, 0x70, 0x48, 0x50, 0xfd, 0xed, 0xb9, 0xda, 0x5e, 0x15, 0x46, 0x57, 0xa7, 0x8d, 0x9d, 0x84],
    [0x90, 0xd8, 0xab, 0x00, 0x8c, 0xbc, 0xd3, 0x0a, 0xf7, 0xe4, 0x58, 0x05, 0xb8, 0xb3, 0x45, 0x06],
    [0xd0, 0x2c, 0x1e, 0x8f, 0xca, 0x3f, 0x0f, 0x02, 0xc1, 0xaf, 0xbd, 0x03, 0x01, 0x13, 0x8a, 0x6b],
    [0x3a, 0x91, 0x11, 0x41, 0x4f, 0x67, 0xdc, 0xea, 0x97, 0xf2, 0xcf, 0xce, 0xf0, 0xb4, 0xe6, 0x73],
    [0x96, 0xac, 0x74, 0x22, 0xe7, 0xad, 0x35, 0x85, 0xe2, 0xf9, 0x37, 0xe8, 0x1c, 0x75, 0xdf, 0x6e],
    [0x47, 0xf1, 0x1a, 0x71, 0x1d, 0x29, 0xc5, 0x89, 0x6f, 0xb7, 0x62, 0x0e, 0xaa, 0x18, 0xbe, 0x1b],
    [0xfc, 0x56, 0x3e, 0x4b, 0xc6, 0xd2, 0x79, 0x20, 0x9a, 0xdb, 0xc0, 0xfe, 0x78, 0xcd, 0x5a, 0xf4],
    [0x1f, 0xdd, 0xa8, 0x33, 0x88, 0x07, 0xc7, 0x31, 0xb1, 0x12, 0x10, 0x59, 0x27, 0x80, 0xec, 0x5f],
    [0x60, 0x51, 0x7f, 0xa9, 0x19, 0xb5, 0x4a, 0x0d, 0x2d, 0xe5, 0x7a, 0x9f, 0x93, 0xc9, 0x9c, 0xef],
    [0xa0, 0xe0, 0x3b, 0x4d, 0xae, 0x2a, 0xf5, 0xb0, 0xc8, 0xeb, 0xbb, 0x3c, 0x83, 0x53, 0x99, 0x61],
    [0x17, 0x2b, 0x04, 0x7e, 0xba, 0x77, 0xd6, 0x26, 0xe1, 0x69, 0x14, 0x63, 0x55, 0x21, 0x0c, 0x7d]
  ]

/-- Look a byte up in a table laid out as R102's: the high hex digit selects the row, the low one the column. -/
def tableAt (rows : List (List Byte)) (a : Byte) : Byte :=
  (rows.getD (a.toNat / 16) []).getD (a.toNat % 16) 0

/-- R102 `SBOX[a]`. -/
def sbox (a : Byte) : Byte := tableAt sboxRows a

/-- R103 `INVSBOX[a]`. -/
def invSbox (a : Byte) : Byte := tableAt invSboxRows a

/-! ## State layout -/

/-- Four bytes: column `c` of the cipher state, rows 0 to 3 (R105), or one word `w[i]` of the key schedule (R106). -/
@[ext] structure Col where
  r0 : Byte
  r1 : Byte
  r2 : Byte
  r3 : Byte
  deriving DecidableEq, Repr

/-- R105: the 16-byte state as its four columns; state byte `r + 4*c` is row `r` of column `c`. -/
@[ext] structure Block where
  c0 : Col
  c1 : Col
  c2 : Col
  c3 : Col
  deriving DecidableEq, Repr

/-- Byte by byte exclusive or of two words. -/
def Col.xor (a b : Col) : Col :=
  ⟨a.r0 ^^^ b.r0, a.r1 ^^^ b.r1, a.r2 ^^^ b.r2, a.r3 ^^^ b.r3⟩

/-- Byte by byte exclusive or of two 16-byte blocks. -/
def Block.xor (a b : Block) : Block :=
  ⟨a.c0.xor b.c0, a.c1.xor b.c1, a.c2.xor b.c2, a.c3.xor b.c3⟩

/-- The word at byte offset `i` of a sequence (bytes beyond its end read as 0; never asked for on the lengths the
rules give). -/
def Col.ofBytes (s : Bytes) (i : Nat) : Col :=
  ⟨s.getD i 0, s.getD (i + 1) 0, s.getD (i + 2) 0, s.getD (i + 3) 0⟩

/-- R54, R105: load a 16-byte sequence into a block, `s[j] = B[j]`. -/
def Block.ofBytes (s : Bytes) : Block :=
  ⟨Col.ofBytes s 0, Col.ofBytes s 4, Col.ofBytes s 8, Col.ofBytes s 12⟩

/-- The four bytes of a word, in index order. -/
def Col.toBytes (w : Col) : Bytes := [w.r0, w.r1, w.r2, w.r3]

/-- R105: read a block out as 16 bytes, in index order. -/
def Block.toBytes (b : Block) : Bytes :=
  b.c0.toBytes ++ b.c1.toBytes ++ b.c2.toBytes ++ b.c3.toBytes

/-! ## The key and its expansion -/

/-- R21: the key is exactly 32 bytes. -/
abbrev Key := Vector Byte 32

/-- The first 32 bytes of a sequence as a key (R171 `IBUF[0..32]`, R202 `s[0..32]`). A shorter sequence, which no rule
hands to it, would be filled up with 0. -/
def Key.ofBytes (s : Bytes) : Key := ⟨(s.takeD 32 0).toArray, (List.size_toArray ..).trans (List.takeD_length ..)⟩

/-- R21: the reset value of `KEY`, 32 bytes of 0x00. -/
def Key.zero : Key := Vector.replicate 32 0

/-- R104 `RCON[1..7]`. -/
def rcon (i : Nat) : Byte := xtimes (i - 1) 0x01

/-- R106 `RotWord`. -/
def rotWord (t : Col) : Col := ⟨t.r1, t.r2, t.r3, t.r0⟩

/-- R106 `SubWord`. -/
def subWord (t : Col) : Col := ⟨sbox t.r0, sbox t.r1, sbox t.r2, sbox t.r3⟩

/-- R106: what `w[i-8]` is combined with to give `w[i]`, from `w[i-1]`. -/
def scheduleCore (i : Nat) (t : Col) : Col :=
  if i % 8 = 0 then (subWord (rotWord t)).xor ⟨rcon (i / 8), 0, 0, 0⟩
  else if i % 8 = 4 then subWord t
  else t

/-- R106: `n` more words from index `i` on, with the words so far held NEWEST FIRST: `w[i-1]` is the head and `w[i-8]`
stands at place 7. -/
def expandWords : Nat → Nat → List Col → List Col
  | 0, _, ws => ws
  | n + 1, i, ws =>
    expandWords n (i + 1) ((ws.getD 7 ⟨0, 0, 0, 0⟩).xor (scheduleCore i (ws.getD 0 ⟨0, 0, 0, 0⟩)) :: ws)

/-- R106: the eight words of the key itself, `w[i] = K[4i .. 4i+4]`. -/
def keyWords (k : Key) : List Col :=
  let s := k.toList
  [Col.ofBytes s 0, Col.ofBytes s 4, Col.ofBytes s 8, Col.ofBytes s 12,
   Col.ofBytes s 16, Col.ofBytes s 20, Col.ofBytes s 24, Col.ofBytes s 28]

/-- R106 `KeyExpansion(K)`: the words `w[0..59]`, in order. -/
def keyExpansion (k : Key) : List Col :=
  (expandWords 52 8 (keyWords k).reverse).reverse

/-- R106: the round keys, four words each, from the words in order. -/
def groupWords : List Col → List Block
  | a :: b :: c :: d :: ws => ⟨a, b, c, d⟩ :: groupWords ws
  | _ => []

/-- R106: `RK[0..14]`. -/
def roundKeys (k : Key) : List Block := groupWords (keyExpansion k)

/-- `RK[r]` out of a list of round keys. -/
def rkAt (rks : List Block) (r : Nat) : Block :=
  rks.getD r ⟨⟨0, 0, 0, 0⟩, ⟨0, 0, 0, 0⟩, ⟨0, 0, 0, 0⟩, ⟨0, 0, 0, 0⟩⟩

/-! ## Round functions -/

/-- R107 `AddRoundKey`. -/
def addRoundKey (s k : Block) : Block := s.xor k

/-- Apply a function to every byte of a word. -/
def Col.map (f : Byte → Byte) (w : Col) : Col := ⟨f w.r0, f w.r1, f w.r2, f w.r3⟩

/-- Apply a function to every byte of a block. -/
def Block.map (f : Byte → Byte) (s : Block) : Block := ⟨s.c0.map f, s.c1.map f, s.c2.map f, s.c3.map f⟩

/-- R108 `SubBytes`. -/
def subBytes (s : Block) : Block := s.map sbox

/-- R108 `InvSubBytes`. -/
def invSubBytes (s : Block) : Block := s.map invSbox

/-- R109 `ShiftRows`: row `r` is rotated left by `r` positions. -/
def shiftRows : Block → Block
  | ⟨⟨s0, s1, s2, s3⟩, ⟨s4, s5, s6, s7⟩, ⟨s8, s9, s10, s11⟩, ⟨s12, s13, s14, s15⟩⟩ =>
    ⟨⟨s0, s5, s10, s15⟩, ⟨s4, s9, s14, s3⟩, ⟨s8, s13, s2, s7⟩, ⟨s12, s1, s6, s11⟩⟩

/-- R109 `InvShiftRows`: row `r` is rotated right by `r` positions. -/
def invShiftRows : Block → Block
  | ⟨⟨s0, s1, s2, s3⟩, ⟨s4, s5, s6, s7⟩, ⟨s8, s9, s10, s11⟩, ⟨s12, s13, s14, s15⟩⟩ =>
    ⟨⟨s0, s13, s10, s7⟩, ⟨s4, s1, s14, s11⟩, ⟨s8, s5, s2, s15⟩, ⟨s12, s9, s6, s3⟩⟩

/-- R110: `MixColumns` on one column. -/
def mixColumn (a : Col) : Col where
  r0 := gmul a.r0 2 ^^^ gmul a.r1 3 ^^^ a.r2 ^^^ a.r3
  r1 := a.r0 ^^^ gmul a.r1 2 ^^^ gmul a.r2 3 ^^^ a.r3
  r2 := a.r0 ^^^ a.r1 ^^^ gmul a.r2 2 ^^^ gmul a.r3 3
  r3 := gmul a.r0 3 ^^^ a.r1 ^^^ a.r2 ^^^ gmul a.r3 2

/-- R110: `InvMixColumns` on one column. -/
def invMixColumn (a : Col) : Col where
  r0 := gmul a.r0 14 ^^^ gmul a.r1 11 ^^^ gmul a.r2 13 ^^^ gmul a.r3 9
  r1 := gmul a.r0 9 ^^^ gmul a.r1 14 ^^^ gmul a.r2 11 ^^^ gmul a.r3 13
  r2 := gmul a.r0 13 ^^^ gmul a.r1 9 ^^^ gmul a.r2 14 ^^^ gmul a.r3 11
  r3 := gmul a.r0 11 ^^^ gmul a.r1 13 ^^^ gmul a.r2 9 ^^^ gmul a.r3 14

/-- R110 `MixColumns`. -/
def mixColumns (s : Block) : Block := ⟨mixColumn s.c0, mixColumn s.c1, mixColumn s.c2, mixColumn s.c3⟩

/-- R110 `InvMixColumns`. -/
def invMixColumns (s : Block) : Block :=
  ⟨invMixColumn s.c0, invMixColumn s.c1, invMixColumn s.c2, invMixColumn s.c3⟩

/-! ## The cipher -/

/-- R111: one of the rounds 1 to 13. -/
def encRound (s k : Block) : Block := addRoundKey (mixColumns (shiftRows (subBytes s))) k

/-- R115: the inverse of one of the rounds 1 to 13. -/
def decRound (s k : Block) : Block := invMixColumns (addRoundKey (invSubBytes (invShiftRows s)) k)

/-- R111 `AES256_Enc`, on round keys already expanded. -/
def aesEncWith (rks : List Block) (b : Block) : Block :=
  let s := addRoundKey b (rkAt rks 0)
  let s := (List.range' 1 13).foldl (fun s r => encRound s (rkAt rks r)) s
  addRoundKey (shiftRows (subBytes s)) (rkAt rks 14)

/-- R115 `AES256_Dec`, on round keys already expanded. -/
def aesDecWith (rks : List Block) (b : Block) : Block :=
  let s := addRoundKey b (rkAt rks 14)
  let s := (List.range' 1 13).reverse.foldl (fun s r => decRound s (rkAt rks r)) s
  addRoundKey (invSubBytes (invShiftRows s)) (rkAt rks 0)

/-- R111 `AES256_Enc(K, B)`. -/
def aesEnc (k : Key) (b : Block) : Block := aesEncWith (roundKeys k) b

/-- R115 `AES256_Dec(K, B)`. -/
def aesDec (k : Key) (b : Block) : Block := aesDecWith (roundKeys k) b

end Sys2Proof.Machine
end

