-- ==== Sys2Proof/Machine/State.lean ====
section
/-! DEFINITION. The state of the machine as plain data: the five elements of the engine (`10_state.md` R20) and, for
the two other agents of R12, the host's script with what it has received and the random source. Also the reasons a step
can stop, and the state after reset. -/

namespace Sys2Proof.Machine

/-- R240: the error kinds. The first two are the host layer's alone; the engine records the others in `ERRCODE`. -/
inductive ErrorKind where
  /-- Code 1, host layer: the password is shorter than 6 characters (R202). -/
  | invalidPassword
  /-- Code 2, host layer: `chunkCapacity <= 48` (R210). -/
  | chunkCapacityTooSmall
  /-- Code 3: text decoding failed (host layer, R207) or the frame has fewer than 16 bytes (DEC, R173). -/
  | malformedBlock
  /-- Code 4: invalid ciphertext length or invalid pad count (DEC, R173). -/
  | decryptionFailed
  /-- Code 5: ENC or DEC with `KEYV = 0` (R172, R173). -/
  | noKey
  /-- Code 6: a reserved command word (R175), or KEYLD without exactly 32 bytes (R171). -/
  | illegalCommand
  deriving DecidableEq, Repr

/-- `20_memory.md` section 2: the five kinds of port operation. -/
inductive PortOp where
  /-- R51 `PUSH(b)` on the DIN port. -/
  | push (b : Byte)
  /-- R52 `POP()` on the DOUT port. -/
  | pop
  /-- R53 `RDREG(n)`, with `n` a 4-bit register number (R86). -/
  | rdreg (n : BitVec 4)
  /-- R170 `CMD(w)`, with `w` an 8-bit command word. -/
  | cmd (w : Byte)
  /-- R270 `RESET`. -/
  | reset
  deriving DecidableEq, Repr

/-- One entry of the host's script: what the host does next. -/
inductive HostItem where
  /-- Issue one port operation. -/
  | op (o : PortOp)
  /-- R85 `DRAIN`: read `OCNT`, then pop that many bytes. -/
  | drain
  /-- R212: read `STATUS`; where it shows an error, issue CLR and give up the rest of the script. -/
  | stopOnError
  /-- R85 `RNG h0 h1 ...`: not an operation of the host; fixes the next bytes the random source answers. -/
  | rng (bs : Bytes)
  deriving DecidableEq, Repr

/-- What a port operation returned to the host. -/
inductive Answer where
  /-- The byte a POP returned (R52). -/
  | byte (b : Byte)
  /-- The value an RDREG returned (R53), as a natural number (R27; log entry 6). -/
  | word (n : Nat)
  deriving DecidableEq, Repr

/-- The random source, an agent of its own (R12): the answers an RNG directive has fixed and not yet given (R85), and
how many bytes have been drawn so far. The count is the model's own field: it picks out the free value
`Config.rngByte` of a draw that nothing has fixed (log entry 3). -/
@[ext] structure Rng where
  fixed : Bytes
  drawn : Nat
  deriving DecidableEq, Repr

/-- The whole state. `key`, `keyv`, `errcode`, `ibuf` and `obuf` are R20's five elements, and nothing else of the
engine survives a step; `rng` is the random source's; `script` and `received` are the host's (log entries 1, 11). -/
@[ext]
structure State where
  /-- R21 `KEY`. -/
  key : Key
  /-- R22 `KEYV`. -/
  keyv : Bool
  /-- R23 `ERRCODE`. -/
  errcode : BitVec 4
  /-- R24 `IBUF`, the byte pushed first at the head. -/
  ibuf : Bytes
  /-- R25 `OBUF`, the byte that will be popped next at the head. -/
  obuf : Bytes
  /-- The random source. -/
  rng : Rng
  /-- What the host is still to do, next entry first. -/
  script : List HostItem
  /-- What the host has received, oldest first. -/
  received : List Answer
  deriving DecidableEq, Repr

/-- Reasons for which the machine stops with a fault. There is none: an error of a command is recorded in `ERRCODE`
and the machine goes on (R242), a hold leaves the state as it is (R9), and every one of the 256 command words has an
effect (R83). -/
inductive Fault where
  deriving DecidableEq, Repr

/-- Reasons for which the machine declines to give a step. -/
inductive Refusal where
  /-- Raised by no meaning: it would stand in an arm of `exec` whose instruction had none yet (safe). -/
  | notModelled (mnemonic : String)
  deriving DecidableEq, Repr

/-- What one step answers. -/
abbrev Outcome := Host.Outcome State Fault Refusal

/-- R34: the state after RESET. The engine's five elements have the values of R20's last column; the host has nothing
to do and has received nothing, and the random source has answered nothing yet (log entry 11). -/
def State.reset : State where
  key := Key.zero
  keyv := false
  errcode := 0
  ibuf := []
  obuf := []
  rng := ⟨[], 0⟩
  script := []
  received := []

end Sys2Proof.Machine
end

