-- ==== Sys2Proof/Machine/Framing.lean ====
section
/-! DEFINITION. The padding unit, CBC chaining and framing as pure functions on byte sequences
(`41_cbc_padding_framing.md` R140 to R148). They read and write no state. -/

namespace Sys2Proof.Machine

/-! ## Padding unit -/

/-- R140: the number of padding bytes added to a chunk of `n` bytes, 1 to 16. -/
def padLen (n : Nat) : Nat := 16 - n % 16

/-- R141 `Pad(chunk, fill)`: the chunk, the random fill, and the pad count as the last byte. -/
def pad (chunk fill : Bytes) : Bytes := chunk ++ fill ++ [BitVec.ofNat 8 (padLen chunk.length)]

/-- R147: the pad count of a decrypted plaintext, its last byte. -/
def padCount (p : Bytes) : Nat := (p.getD (p.length - 1) 0).toNat

/-- R147 `Unpad(P)`: only the last byte is examined. -/
def unpad (p : Bytes) : Except ErrorKind Bytes :=
  if padCount p < 1 ∨ 16 < padCount p then .error .decryptionFailed
  else .ok (p.take (p.length - padCount p))

/-! ## CBC chaining -/

/-- R142, R143: the first `m` cipher blocks of a sequence, block `i` being `s[16i .. 16i+16]`. -/
def toBlocks : Nat → Bytes → List Block
  | 0, _ => []
  | m + 1, s => Block.ofBytes (s.take 16) :: toBlocks m (s.drop 16)

/-- R142, R143: the blocks written out one after another. -/
def blocksToBytes (bs : List Block) : Bytes := bs.flatMap Block.toBytes

/-- R142: the loop of `CBC_Enc`, with the chaining value `cv`. -/
def cbcEncBlocks (rks : List Block) : Block → List Block → List Block
  | _, [] => []
  | cv, x :: xs =>
    let c := aesEncWith rks (x.xor cv)
    c :: cbcEncBlocks rks c xs

/-- R143: the loop of `CBC_Dec`, with the chaining value `cv`. -/
def cbcDecBlocks (rks : List Block) : Block → List Block → List Block
  | _, [] => []
  | cv, c :: cs => (aesDecWith rks c).xor cv :: cbcDecBlocks rks c cs

/-- R142 `CBC_Enc(K, IV, P)`. -/
def cbcEnc (k : Key) (iv p : Bytes) : Bytes :=
  blocksToBytes (cbcEncBlocks (roundKeys k) (Block.ofBytes iv) (toBlocks (p.length / 16) p))

/-- R143 `CBC_Dec(K, IV, C)`. -/
def cbcDec (k : Key) (iv c : Bytes) : Bytes :=
  blocksToBytes (cbcDecBlocks (roundKeys k) (Block.ofBytes iv) (toBlocks (c.length / 16) c))

/-! ## Framing -/

/-- R144 `Frame(IV, C)`. -/
def frame (iv c : Bytes) : Bytes := iv ++ c

/-- R144 `Unframe(F)`: the IV (first 16 bytes) and the ciphertext (remainder). -/
def unframe (f : Bytes) : Bytes × Bytes := (f.take 16, f.drop 16)

/-- R148: the length of the frame made from a chunk of `n` bytes. -/
def frameLen (n : Nat) : Nat := n + 16 + padLen n

/-! ## The two compositions -/

/-- R145 `EncChunk(K, chunk, IV, fill)`. -/
def encChunk (k : Key) (chunk iv fill : Bytes) : Bytes := frame iv (cbcEnc k iv (pad chunk fill))

/-- R146 `DecFrame(K, F)`: the three checks in the order of the rule. -/
def decFrame (k : Key) (f : Bytes) : Except ErrorKind Bytes :=
  if f.length < 16 then .error .malformedBlock
  else if (unframe f).2.length = 0 ∨ (unframe f).2.length % 16 ≠ 0 then .error .decryptionFailed
  else unpad (cbcDec k (unframe f).1 (unframe f).2)

end Sys2Proof.Machine
end

