-- ==== Sys2Proof/Machine/Flags.lean ====
section
/-! DEFINITION. The flag-like state and the host-readable registers: the error codes (`60_exceptions.md` R240), and
`STATUS`, `ICNT` and `OCNT` (`10_state.md` R26, R27). The engine has no other flag (R36). -/

namespace Sys2Proof.Machine

/-- R240: the code of each error kind. -/
def ErrorKind.code : ErrorKind → BitVec 4
  | .invalidPassword => 1
  | .chunkCapacityTooSmall => 2
  | .malformedBlock => 3
  | .decryptionFailed => 4
  | .noKey => 5
  | .illegalCommand => 6

/-- R26 `STATUS`, 32 bits: `KEYV` in bit 0, `ERRCODE` in bits 7:4, every other bit read as 0. -/
def State.status (s : State) : BitVec 32 :=
  (s.errcode.setWidth 32 <<< 4) ||| (BitVec.ofBool s.keyv).setWidth 32

/-- R27 `ICNT`, the length of `IBUF` as a natural number (log entry 6). -/
def State.icnt (s : State) : Nat := s.ibuf.length

/-- R27 `OCNT`, the length of `OBUF` as a natural number (log entry 6). -/
def State.ocnt (s : State) : Nat := s.obuf.length

/-- R53, R86: what register number `n` reads as; numbers 3 to 15 are reserved and read as 0. -/
def State.register (s : State) (n : BitVec 4) : Nat :=
  if n = 0 then s.status.toNat
  else if n = 1 then s.icnt
  else if n = 2 then s.ocnt
  else 0

/-- R212 `STATUS[7:4]`: the error code a host reads out of a `STATUS` value. -/
def statusError (status : Nat) : Nat := status / 16 % 16

end Sys2Proof.Machine
end

