-- ==== Sys2Proof/Machine/Ops.lean ====
section
/-! DEFINITION. The operations every meaning is made of: how a port operation ends (done, ignored, held, failed), the
error entry and the way back from it, the draws of the random source, and what the host is told. -/

namespace Sys2Proof.Machine

/-! ## How a port operation ends -/

/-- R11, R29: the operation at the head of the host's script has happened; the next one is its successor's turn. It is
what stands in for the advance of a program counter. -/
def State.retire (s : State) : State := { s with script := s.script.tail }

/-- The operation has happened and left `s`, still to be taken off the script. -/
def done (s : State) : Outcome := .next s.retire

/-- R9, R170: a `hold`. The operation has not happened: the state does not change, so the operation stays at the head
of the script and is tried again at the next step (log entry 4). -/
def held (s : State) : Outcome := .next s

/-! ## Error entry and recovery -/

/-- R242: record the kind's code in `ERRCODE`, and nothing else. -/
def State.record (k : ErrorKind) (s : State) : State := { s with errcode := k.code }

/-- R9, R242 `raise <Kind>`: end the command at once with no write but `ERRCODE`. -/
def raise (k : ErrorKind) (s : State) : Outcome := done (s.record k)

/-- R170 line 1, R243: while `ERRCODE` is not 0 the command is ignored, a step that changes nothing of the engine and
draws nothing; otherwise `body` is what it does. -/
def unlessError (s : State) (body : Outcome) : Outcome :=
  if s.errcode ≠ 0 then done s else body

/-- R34, R174, R270: the engine's five elements at their reset values. The other two agents are not touched: the
random source goes on where it stood and the host keeps what it has received (log entry 7). -/
def State.cleared (s : State) : State :=
  { s with key := Key.zero, keyv := false, errcode := 0, ibuf := [], obuf := [] }

/-! ## The random source -/

/-- R182: one draw. An answer an RNG directive has fixed comes first; otherwise the byte is the free value of this
draw (log entries 3, 5). -/
def Rng.next (r : Rng) : Byte × Rng :=
  match r.fixed with
  | b :: bs => (b, ⟨bs, r.drawn + 1⟩)
  | [] => (Config.rngByte r.drawn, ⟨[], r.drawn + 1⟩)

/-- R9, R182 `Rand(n)`: draw `n` bytes, in order. -/
def Rng.rand : Nat → Rng → Bytes × Rng
  | 0, r => ([], r)
  | n + 1, r => (r.next.1 :: (Rng.rand n r.next.2).1, (Rng.rand n r.next.2).2)

/-- R85 `RNG h0 h1 ...`: the next `len(bs)` answers are `bs`; the answers after those stay as they were
(log entry 5). -/
def Rng.fix (bs : Bytes) (r : Rng) : Rng := { r with fixed := bs ++ r.fixed.drop bs.length }

/-! ## What the host is told -/

/-- R52, R53: the host receives what the operation returned. -/
def State.answer (a : Answer) (s : State) : State := { s with received := s.received ++ [a] }

end Sys2Proof.Machine
end

