-- ==== Sys2Proof/Machine/Operands.lean ====
section
/-! DEFINITION. The operand forms (`30_encoding.md` R82): the data operand is the whole of `IBUF`, the key operand is
`KEY`, results go to the tail of `OBUF`. Also the room check of `42_commands.md` R170 line 3. -/

namespace Sys2Proof.Machine

/-- R82: the data operand of KEYLD, ENC and DEC. -/
def State.dataOperand (s : State) : Bytes := s.ibuf

/-- R82, R117: the key operand of ENC and DEC. -/
def State.keyOperand (s : State) : Key := s.key

/-- R24: the data operand has been consumed. -/
def State.consume (s : State) : State := { s with ibuf := [] }

/-- R25: append a result at the tail of `OBUF`. -/
def State.produce (bs : Bytes) (s : State) : State := { s with obuf := s.obuf ++ bs }

/-- R171: load the key register and set its valid bit. -/
def State.loadKey (k : Key) (s : State) : State := { s with key := k, keyv := true }

/-- The random source after an operation has drawn from it. -/
def State.withRng (r : Rng) (s : State) : State := { s with rng := r }

/-- R170 line 3: whether `n` more bytes fit `OBUF`. -/
def State.hasRoom (p : Params) (n : Nat) (s : State) : Bool := s.obuf.length + n ≤ p.obufCap

/-- R170: ENC's `OutBound`, exact. -/
def State.encOutBound (s : State) : Nat := frameLen s.dataOperand.length

/-- R170: DEC's `OutBound`, the longest chunk the frame can hold. -/
def State.decOutBound (s : State) : Nat := s.dataOperand.length - 17

end Sys2Proof.Machine
end

