-- ==== Sys2Proof/Machine/CipherCommands.lean ====
section
/-! DEFINITION. The commands that encrypt and decrypt: ENC (`42_commands.md` R172) and DEC (R173). Each is written with
the buffer capacities as an argument (`00_scope.md` R7) and then taken at the capacities of this machine. -/

namespace Sys2Proof.Machine

/-- R172: ENC once its checks have passed: draw the IV, then the fill, append the frame, empty `IBUF`. -/
def encrypt (s : State) : State :=
  let iv := s.rng.rand 16
  let fill := iv.2.rand (padLen s.dataOperand.length - 1)
  ((s.produce (encChunk s.keyOperand s.dataOperand iv.1 fill.1)).consume).withRng fill.2

/-- R172 `ENC` with the capacities `p`. -/
def encIn (p : Params) (s : State) : Outcome :=
  unlessError s
    (if s.keyv = false then raise .noKey s
    else if s.hasRoom p s.encOutBound then done (encrypt s)
    else held s)

/-- R173: DEC once its checks have passed: append the chunk, empty `IBUF`. -/
def deliver (chunk : Bytes) (s : State) : State := (s.produce chunk).consume

/-- R173 `DEC` with the capacities `p`. The room check stands after all four error checks, so a frame that is going to
fail never holds. -/
def decIn (p : Params) (s : State) : Outcome :=
  unlessError s
    (if s.keyv = false then raise .noKey s
    else
      match decFrame s.keyOperand s.dataOperand with
      | .error k => raise k s
      | .ok chunk => if s.hasRoom p s.decOutBound then done (deliver chunk s) else held s)

/-- R172 `ENC`: encrypt the chunk in `IBUF` into one frame appended to `OBUF`. -/
def execEnc (s : State) : Outcome := encIn Config.params s

/-- R173 `DEC`: parse and decrypt the frame in `IBUF` into one chunk appended to `OBUF`. -/
def execDec (s : State) : Outcome := decIn Config.params s

end Sys2Proof.Machine
end

