-- ==== Sys2Proof/Machine/KeyCommands.lean ====
section
/-! DEFINITION. The commands that act on the key and the error state: KEYLD (`42_commands.md` R171), CLR (R174), and
what a reserved command word does (R175). -/

namespace Sys2Proof.Machine

/-- R171 `KEYLD`: load the key from exactly 32 bytes of `IBUF`; any other length is `IllegalCommand`. No draw, no
room check. -/
def execKeyld (s : State) : Outcome :=
  unlessError s
    (if s.dataOperand.length ≠ 32 then raise .illegalCommand s
    else done (s.loadKey (Key.ofBytes s.dataOperand)).consume)

/-- R174 `CLR`: clear everything. The one command executed even while `ERRCODE` is not 0; it never holds. -/
def execClr (s : State) : Outcome := done s.cleared

/-- R175: a reserved command word raises `IllegalCommand`, or is ignored while `ERRCODE` is not 0. -/
def execReserved (s : State) : Outcome := unlessError s (raise .illegalCommand s)

end Sys2Proof.Machine
end

