-- ==== Sys2Proof/Machine/Ports.lean ====
section
/-! DEFINITION. The five port operations (`20_memory.md` R51 to R53, `42_commands.md` R170, `70_reset_and_hazards.md`
R270) and the entries of the host's script (`30_encoding.md` R85): what one step of the machine does. -/

namespace Sys2Proof.Machine

/-- R51 `PUSH(b)` with the capacities `p`; a hold on a full `IBUF`. -/
def pushIn (p : Params) (b : Byte) (s : State) : Outcome :=
  if s.ibuf.length < p.ibufCap then done { s with ibuf := s.ibuf ++ [b] } else held s

/-- R51 `PUSH(b)`. -/
def push (b : Byte) (s : State) : Outcome := pushIn Config.params b s

/-- R52 `POP()`; a hold on an empty `OBUF`. -/
def pop (s : State) : Outcome :=
  match s.obuf with
  | [] => held s
  | b :: rest => done ({ s with obuf := rest }.answer (.byte b))

/-- R53 `RDREG(n)`: always accepted, changes nothing of the engine. -/
def rdreg (n : BitVec 4) (s : State) : Outcome := done (s.answer (.word (s.register n)))

/-- R270 `RESET`: always accepted, in every state. -/
def reset (s : State) : Outcome := done s.cleared

/-- R170 `CMD(w)`: decode the word and execute the command; any other word is R175's. Line 1 of the rule (the sticky
error) is tested inside each command but CLR, which comes to the same because decoding reads no state. -/
def cmd (w : Byte) (s : State) : Outcome :=
  match decodeWord w with
  | .ok i => exec i s
  | .error _ => execReserved s

/-- One port operation, one atomic step (R11). -/
def issue (o : PortOp) (s : State) : Outcome :=
  match o with
  | .push b => push b s
  | .pop => pop s
  | .rdreg n => rdreg n s
  | .cmd w => cmd w s
  | .reset => reset s

/-- R85 `DRAIN`: one RDREG of `OCNT` returning `n`, after which the host's next operations are `n` POPs. -/
def drain (s : State) : Outcome :=
  .next { s.answer (.word (s.register 2)) with
    script := List.replicate (s.register 2) (.op .pop) ++ s.script.tail }

/-- R212: one RDREG of `STATUS`; when its error field is not 0 the host's next and last operation is CLR. -/
def stopOnError (s : State) : Outcome :=
  .next { s.answer (.word (s.register 0)) with
    script := if statusError (s.register 0) ≠ 0 then [.op (.cmd 0x04)] else s.script.tail }

/-- R85 `RNG h0 h1 ...`: the directive changes no engine state. -/
def fixRng (bs : Bytes) (s : State) : Outcome := done (s.withRng (s.rng.fix bs))

/-- What one entry of the host's script does. -/
def perform (item : HostItem) (s : State) : Outcome :=
  match item with
  | .op o => issue o s
  | .drain => drain s
  | .stopOnError => stopOnError s
  | .rng bs => fixRng bs s

/-- R12: nothing happens unless the host acts (log entry 1). -/
def idle (s : State) : Outcome := .next s

/-- The script entries that present an opcode-table word of `nbits` bits on the CMD port, one operation a byte. -/
def wordItems (nbits w : Nat) : List HostItem :=
  (tableBytes (tableByteCount nbits) (w % 2 ^ nbits)).map fun b => .op (.cmd b)

/-- The host puts one port operation before the rest of its script: how a host lifts a hold by another operation
(R9, R280). -/
def State.insert (o : PortOp) (s : State) : State := { s with script := .op o :: s.script }

/-- The host starts a script (R29: the host's sequence of port operations stands in for the program). -/
def State.begin (items : List HostItem) (s : State) : State := { s with script := items }

end Sys2Proof.Machine
end

