-- ==== Sys2Proof/Machine/Step.lean ====
section
/-! DEFINITION. One step of the machine. There is no program counter and no fetch (`10_state.md` R29): the host issues
port operations one at a time, and the next entry of its script is the next instruction. -/

namespace Sys2Proof.Machine

/-- One step: the next entry of the host's script, or nothing when there is none. -/
def step (s : State) : Host.Outcome State Fault Refusal :=
  match s.script with
  | [] => idle s
  | item :: _ => perform item s

/-- `s` with the host about to present the opcode-table word `w` of `nbits` bits on the CMD port, before whatever else
it was going to do. -/
def State.withFetchWord (s : State) (nbits w : Nat) : State :=
  { s with script := wordItems nbits w ++ s.script }

end Sys2Proof.Machine
end

