-- ==== Sys2Proof/Machine/HostCodec.lean ====
section
/-! DEFINITION. The host codec layer as pure functions (`43_host_codec.md` R201 to R211, R219): the key deriver, the
text form of a frame, the chunk splitter, and the reference meaning of the two calls. It is software beside the engine;
no step of the machine calls it, and its failures are never written to `ERRCODE` (R250). -/

namespace Sys2Proof.Machine

/-- Why the host layer declines to give a result: the spec defines none there. -/
inductive HostRefusal where
  /-- R205 (U6): the password has a character with a code above 127; neither a key nor `InvalidPassword`. -/
  | passwordOutsideAscii
  /-- R208 (U8): a chunk would not fit `IBUF`, so the host must not use this engine for that capacity. -/
  | chunkExceedsIbuf
  /-- R212 (U8): a decoded frame would not fit `IBUF`. -/
  | frameExceedsIbuf
  /-- R250 (U16): the driver read error code 5 or 6, for which the spec names no failure of the call. -/
  | driverDefect
  /-- The answers given are not those of a finished call. -/
  | callUnfinished
  deriving DecidableEq, Repr

/-- R250: how a host-layer function ends without a value: a typed failure, or a refusal. -/
inductive HostStop where
  | failed (k : ErrorKind)
  | refused (why : HostRefusal)
  deriving DecidableEq, Repr

/-! ## Key deriver -/

/-- R203 `ALPHA[i]`: the 52 letters `A` .. `Z` then `a` .. `z`. -/
def alpha (i : Nat) : Nat := if i < 26 then 65 + i else 97 + (i - 26)

/-- R202: the index of the letter appended when the length is `n`. -/
def stretchIndex (n : Nat) : Nat := Config.alphaLen * n % Config.stretchMod

/-- R202: the loop that appends letters while the length is below 32, run at most `fuel` times. -/
def stretch : Nat → Text → Text
  | 0, s => s
  | fuel + 1, s => if s.length < 32 then stretch fuel (s ++ [alpha (stretchIndex s.length)]) else s

/-- R205: every character has a code 0 to 127. -/
def asciiOnly (pw : Text) : Bool := pw.all (· ≤ 127)

/-- R202 `Derive(pw)`. Thirty-two appends are more than any password needs. -/
def derive (pw : Text) : Except HostStop Key :=
  if asciiOnly pw = false then .error (.refused .passwordOutsideAscii)
  else if pw.length < Config.pwMin then .error (.failed .invalidPassword)
  else .ok (Key.ofBytes ((stretch 32 pw).map (BitVec.ofNat 8)))

/-! ## Text form of a frame -/

/-- R206: the standard alphabet, index to character. -/
def b64Char (v : Nat) : Nat :=
  if v < 26 then 65 + v
  else if v < 52 then 97 + (v - 26)
  else if v < 62 then 48 + (v - 52)
  else if v = 62 then 43
  else 47

/-- R206: the standard alphabet, character to index. -/
def b64Val (c : Nat) : Option Nat :=
  if 65 ≤ c ∧ c ≤ 90 then some (c - 65)
  else if 97 ≤ c ∧ c ≤ 122 then some (c - 97 + 26)
  else if 48 ≤ c ∧ c ≤ 57 then some (c - 48 + 52)
  else if c = 43 then some 62
  else if c = 47 then some 63
  else none

/-- R206: the code of `=`. -/
def padChar : Nat := 61

/-- R206: three bytes as a 24-bit number, first byte most significant. -/
def group24 (a b c : Byte) : Nat := a.toNat * 65536 + b.toNat * 256 + c.toNat

/-- R206 `B64Enc(F)`: four characters for three bytes, most significant 6 bits first, with `=` in a short last
group. -/
def b64Enc : Bytes → Text
  | [] => []
  | [a] =>
    let n := group24 a 0 0
    [b64Char (n / 262144), b64Char (n / 4096 % 64), padChar, padChar]
  | [a, b] =>
    let n := group24 a b 0
    [b64Char (n / 262144), b64Char (n / 4096 % 64), b64Char (n / 64 % 64), padChar]
  | a :: b :: c :: rest =>
    let n := group24 a b c
    b64Char (n / 262144) :: b64Char (n / 4096 % 64) :: b64Char (n / 64 % 64) :: b64Char (n % 64) :: b64Enc rest

/-- R207: a group of four characters of the alphabet, three bytes. -/
def b64Full (c0 c1 c2 c3 : Nat) : Option Bytes :=
  match b64Val c0, b64Val c1, b64Val c2, b64Val c3 with
  | some v0, some v1, some v2, some v3 =>
    let n := v0 * 262144 + v1 * 4096 + v2 * 64 + v3
    some [BitVec.ofNat 8 (n / 65536), BitVec.ofNat 8 (n / 256), BitVec.ofNat 8 n]
  | _, _, _, _ => none

/-- R207: the last group: one byte and `==`, two bytes and `=`, or three bytes; the unused low bits must be zero. -/
def b64Last (c0 c1 c2 c3 : Nat) : Option Bytes :=
  if c3 = padChar then
    if c2 = padChar then
      match b64Val c0, b64Val c1 with
      | some v0, some v1 => if v1 % 16 = 0 then some [BitVec.ofNat 8 (v0 * 4 + v1 / 16)] else none
      | _, _ => none
    else
      match b64Val c0, b64Val c1, b64Val c2 with
      | some v0, some v1, some v2 =>
        if v2 % 4 = 0 then
          let n := v0 * 1024 + v1 * 16 + v2 / 4
          some [BitVec.ofNat 8 (n / 256), BitVec.ofNat 8 n]
        else none
      | _, _, _ => none
  else b64Full c0 c1 c2 c3

/-- R207: strict decoding, group by group. -/
def b64Groups : Text → Option Bytes
  | [] => some []
  | [c0, c1, c2, c3] => b64Last c0 c1 c2 c3
  | c0 :: c1 :: c2 :: c3 :: rest =>
    match b64Full c0 c1 c2 c3, b64Groups rest with
    | some g, some f => some (g ++ f)
    | _, _ => none
  | _ => none

/-- R207 `B64Dec(T)`. -/
def b64Dec (t : Text) : Except ErrorKind Bytes :=
  match b64Groups t with
  | some f => .ok f
  | none => .error .malformedBlock

/-! ## Chunk splitter -/

/-- R209: the chunk size `N = chunkCapacity - 48`. -/
def chunkSize (cap : Int) : Nat := (cap - Config.overhead).toNat

/-- R209: the number of chunks, `ceil(len / n)`. -/
def chunkCount (len n : Nat) : Nat := (len + (n - 1)) / n

/-- R209 `Split(payload, N)`: chunk `i` is `payload[i*N .. min((i+1)*N, len)]`. -/
def split (payload : Bytes) (n : Nat) : List Bytes :=
  (List.range (chunkCount payload.length n)).map fun i => (payload.drop (i * n)).take n

/-! ## The two calls as functions -/

/-- R219: what the random source answers during one ENC. -/
structure Draw where
  iv : Bytes
  fill : Bytes
  deriving DecidableEq, Repr

/-- R219: the text block of one chunk. -/
def encryptChunk (k : Key) (chunk : Bytes) (d : Draw) : Text := b64Enc (encChunk k chunk d.iv d.fill)

/-- R219 `Encrypt(payload, key, cap, draws)`, with one pair of draws for each chunk. -/
def encryptCall (payload : Bytes) (k : Key) (cap : Int) (draws : List Draw) : Except HostStop (List Text) :=
  if cap ≤ Config.overhead then .error (.failed .chunkCapacityTooSmall)
  else .ok (List.zipWith (encryptChunk k) (split payload (chunkSize cap)) draws)

/-- R219: one text block decrypted: `B64Dec`, then `DecFrame`. -/
def decryptBlock (k : Key) (t : Text) : Except ErrorKind Bytes :=
  match b64Dec t with
  | .error e => .error e
  | .ok f => decFrame k f

/-- R219 `Decrypt(blocks, key)`: the first failing block in the given order ends the call with its failure alone. -/
def decryptCall : List Text → Key → Except HostStop Bytes
  | [], _ => .ok []
  | t :: ts, k =>
    match decryptBlock k t with
    | .error e => .error (.failed e)
    | .ok chunk =>
      match decryptCall ts k with
      | .error e => .error e
      | .ok rest => .ok (chunk ++ rest)

end Sys2Proof.Machine
end

