-- ==== Sys2Proof/Machine/HostCalls.lean ====
section
/-! DEFINITION. The two driver procedures of the host (`43_host_codec.md` R208, R212) as scripts of port operations,
and how the host reads the result of a call out of what it received. A call runs on the machine by `State.begin` and
steps; nothing here is a step. -/

namespace Sys2Proof.Machine

/-- A PUSH of each byte, in order (R85). -/
def pushItems (bs : Bytes) : List HostItem := bs.map fun b => .op (.push b)

/-- The command word of `i` on the CMD port (R85). -/
def cmdItem (i : Instr) : HostItem := .op (.cmd (encode i))

/-- R208, R212: what a call begins with: CLR, then the key loaded. -/
def loadKeyItems (k : Key) : List HostItem := cmdItem .clr :: (pushItems k.toList ++ [cmdItem .keyld])

/-! ## Encrypt -/

/-- R208: one chunk: push it, encrypt it, drain the frame. -/
def encryptChunkItems (chunk : Bytes) : List HostItem := pushItems chunk ++ [cmdItem .enc, .drain]

/-- R208: the whole call, for chunks already split; it ends with CLR (R215). -/
def encryptItems (k : Key) (chunks : List Bytes) : List HostItem :=
  loadKeyItems k ++ chunks.flatMap encryptChunkItems ++ [cmdItem .clr]

/-- R208: the checks before any port operation, and then the script of the call. -/
def startEncrypt (p : Params) (payload : Bytes) (k : Key) (cap : Int) : Except HostStop (List HostItem) :=
  if cap ≤ Config.overhead then .error (.failed .chunkCapacityTooSmall)
  else if p.ibufCap < chunkSize cap then .error (.refused .chunkExceedsIbuf)
  else .ok (encryptItems k (split payload (chunkSize cap)))

/-- What was received, cut at each RDREG answer: the bytes before the first one, and the bytes after each. -/
def cutAtWords : List Answer → Bytes × List Bytes
  | [] => ([], [])
  | .byte b :: rest => (b :: (cutAtWords rest).1, (cutAtWords rest).2)
  | .word _ :: rest => ([], (cutAtWords rest).1 :: (cutAtWords rest).2)

/-- R208: the text blocks of a finished call: each DRAIN gave its count and then one frame. -/
def encryptResult (received : List Answer) : List Text := (cutAtWords received).2.map b64Enc

/-! ## Decrypt -/

/-- R212: one decoded frame: push it, decrypt it, test `STATUS`; a host may drain after every DEC. -/
def decryptFrameItems (drainEach : Bool) (f : Bytes) : List HostItem :=
  pushItems f ++ [cmdItem .dec, .stopOnError] ++ (if drainEach then [.drain] else [])

/-- R212: the blocks in the order given; a block that does not decode ends the call with CLR. -/
def decryptBlockItems (drainEach : Bool) : List Text → List HostItem
  | [] => (if drainEach then [] else [.drain]) ++ [cmdItem .clr]
  | t :: ts =>
    match b64Dec t with
    | .error _ => [cmdItem .clr]
    | .ok f => decryptFrameItems drainEach f ++ decryptBlockItems drainEach ts

/-- R212: the whole call. -/
def decryptItems (drainEach : Bool) (k : Key) (blocks : List Text) : List HostItem :=
  loadKeyItems k ++ decryptBlockItems drainEach blocks

/-- The length of the raw frame of a text block, where it decodes. -/
def rawLength (t : Text) : Nat :=
  match b64Dec t with
  | .ok f => f.length
  | .error _ => 0

/-- R212: whether the host drains after every DEC: it does when the frames together might not fit `OBUF`
(log entry 14). -/
def drainsEach (p : Params) (blocks : List Text) : Bool := p.obufCap < (blocks.map rawLength).sum

/-- R212: the precondition on the frames' lengths, and then the script of the call. -/
def startDecrypt (p : Params) (blocks : List Text) (k : Key) : Except HostStop (List HostItem) :=
  if blocks.any (fun t => p.ibufCap < rawLength t) then .error (.refused .frameExceedsIbuf)
  else .ok (decryptItems (drainsEach p blocks) k blocks)

/-- R212, R250: the failure kind of a `STATUS` error field that is not 0. -/
def statusFailure (e : Nat) : HostStop :=
  if e = 3 then .failed .malformedBlock
  else if e = 4 then .failed .decryptionFailed
  else .refused .driverDefect

/-- The bytes among some answers, in order. -/
def answerBytes : List Answer → Bytes
  | [] => []
  | .byte b :: rest => b :: answerBytes rest
  | .word _ :: rest => answerBytes rest

/-- R212: the result of a finished call, from what the host received during it: the failure of the first bad block, or
the payload. -/
def decryptResult (drainEach : Bool) : List Text → List Answer → Except HostStop Bytes
  | [], answers => .ok (answerBytes answers)
  | t :: ts, answers =>
    match b64Dec t with
    | .error e => .error (.failed e)
    | .ok _ =>
      match answers with
      | .word st :: rest =>
        if statusError st ≠ 0 then .error (statusFailure (statusError st))
        else if drainEach then
          match rest with
          | .word n :: rest =>
            match decryptResult drainEach ts (rest.drop n) with
            | .ok later => .ok (answerBytes (rest.take n) ++ later)
            | .error e => .error e
          | _ => .error (.refused .callUnfinished)
        else decryptResult drainEach ts rest
      | _ => .error (.refused .callUnfinished)

/-! ## From a password -/

/-- R200, R244: the caller derives the key first; `InvalidPassword` arises before the call is entered. -/
def startEncryptFrom (p : Params) (pw : Text) (payload : Bytes) (cap : Int) : Except HostStop (List HostItem) :=
  match derive pw with
  | .error e => .error e
  | .ok k => startEncrypt p payload k cap

/-- R200, R244: likewise for `Decrypt`. -/
def startDecryptFrom (p : Params) (pw : Text) (blocks : List Text) : Except HostStop (List HostItem) :=
  match derive pw with
  | .error e => .error e
  | .ok k => startDecrypt p blocks k

end Sys2Proof.Machine
end

