-- ==== Sys2Proof/Machine/Script.lean ====
section
/-! DEFINITION. The host script of `30_encoding.md` R85: its lines, what each expands to on the ports, and the reading
of a script's text. It is how programs for this engine are written down; no step reads text. -/

namespace Sys2Proof.Machine

/-- R85: one line of a host script, the pseudo-operations among them. -/
inductive Line where
  /-- `PUSH h0 h1 ... hk`. -/
  | push (bs : Bytes)
  /-- `KEYLD`, `ENC`, `DEC`, `CLR`. -/
  | command (i : Instr)
  /-- `CMD hh`. -/
  | raw (w : Byte)
  /-- `POP n`. -/
  | pop (n : Nat)
  /-- `RDREG r`. -/
  | rdreg (r : BitVec 4)
  /-- `RESET`. -/
  | reset
  /-- `PUSHS "text"`. -/
  | pushs (text : Text)
  /-- `DRAIN`. -/
  | drain
  /-- `RNG h0 h1 ...`. -/
  | rng (bs : Bytes)
  deriving DecidableEq, Repr

/-- R85: a PUSH line has at least one byte, and the characters of PUSHS have codes 0 to 127. -/
def Line.wellFormed : Line → Bool
  | .push bs => !bs.isEmpty
  | .pushs text => asciiOnly text
  | .command _ => true
  | .raw _ => true
  | .pop _ => true
  | .rdreg _ => true
  | .reset => true
  | .drain => true
  | .rng _ => true

/-- R85: what a line means on the ports. -/
def Line.expand : Line → List HostItem
  | .push bs => pushItems bs
  | .command i => [cmdItem i]
  | .raw w => [.op (.cmd w)]
  | .pop n => List.replicate n (.op .pop)
  | .rdreg r => [.op (.rdreg r)]
  | .reset => [.op .reset]
  | .pushs text => pushItems (text.map (BitVec.ofNat 8))
  | .drain => [.drain]
  | .rng bs => [.rng bs]

/-- R85: a script's lines, in order. -/
def expandLines (ls : List Line) : List HostItem := ls.flatMap Line.expand

/-! ## Reading a script's text (log entry 15) -/

/-- The codes of a word written with Lean characters. -/
def codes (cs : List Char) : Text := cs.map Char.toNat

/-- Space and tab. -/
def isBlank (c : Nat) : Bool := c = 32 || c = 9

/-- Cut a text at every character that satisfies `p`; there is always at least one piece. -/
def cutAt (p : Nat → Bool) : Text → List Text
  | [] => [[]]
  | c :: cs =>
    if p c then [] :: cutAt p cs
    else
      match cutAt p cs with
      | piece :: pieces => (c :: piece) :: pieces
      | [] => [[c]]

/-- R85: text from `#` to the end of a line is a comment. -/
def dropComment (l : Text) : Text := l.takeWhile (· ≠ 35)

/-- The words of a line, cut at blanks. -/
def wordsOf (l : Text) : List Text := (cutAt isBlank l).filter (fun w => !w.isEmpty)

/-- A hexadecimal digit, small or capital. -/
def hexDigit (c : Nat) : Option Nat :=
  if 48 ≤ c ∧ c ≤ 57 then some (c - 48)
  else if 97 ≤ c ∧ c ≤ 102 then some (c - 97 + 10)
  else if 65 ≤ c ∧ c ≤ 70 then some (c - 65 + 10)
  else none

/-- R85: a byte given as two hexadecimal digits. -/
def hexByte : Text → Option Byte
  | [a, b] =>
    match hexDigit a, hexDigit b with
    | some x, some y => some (BitVec.ofNat 8 (x * 16 + y))
    | _, _ => none
  | _ => none

/-- All the bytes of a PUSH or RNG line. -/
def hexBytes : List Text → Option Bytes
  | [] => some []
  | w :: ws =>
    match hexByte w, hexBytes ws with
    | some b, some bs => some (b :: bs)
    | _, _ => none

/-- A decimal number's digits after those worth `acc`. -/
def decimalFrom : Nat → Text → Option Nat
  | acc, [] => some acc
  | acc, c :: cs => if 48 ≤ c ∧ c ≤ 57 then decimalFrom (acc * 10 + (c - 48)) cs else none

/-- A decimal number of at least one digit. -/
def decimal : Text → Option Nat
  | [] => none
  | c :: cs => decimalFrom 0 (c :: cs)

/-- R85: a register, written as a number or as `STATUS`, `ICNT`, `OCNT`. -/
def registerName (w : Text) : Option (BitVec 4) :=
  if w = codes ['S', 'T', 'A', 'T', 'U', 'S'] then some 0
  else if w = codes ['I', 'C', 'N', 'T'] then some 1
  else if w = codes ['O', 'C', 'N', 'T'] then some 2
  else
    match decimal w with
    | some n => if n < 16 then some (BitVec.ofNat 4 n) else none
    | none => none

/-- The operand of PUSHS: a text between double quotes with only blanks after it. -/
def quoted (l : Text) : Option Text :=
  match l.dropWhile isBlank with
  | 34 :: rest =>
    match rest.dropWhile (· ≠ 34) with
    | 34 :: after => if after.all isBlank then some (rest.takeWhile (· ≠ 34)) else none
    | _ => none
  | _ => none

/-- A line of words that is not PUSHS. -/
def parseWords : List Text → Option (List Line)
  | [] => some []
  | [w] =>
    if w = codes ['K', 'E', 'Y', 'L', 'D'] then some [.command .keyld]
    else if w = codes ['E', 'N', 'C'] then some [.command .enc]
    else if w = codes ['D', 'E', 'C'] then some [.command .dec]
    else if w = codes ['C', 'L', 'R'] then some [.command .clr]
    else if w = codes ['R', 'E', 'S', 'E', 'T'] then some [.reset]
    else if w = codes ['D', 'R', 'A', 'I', 'N'] then some [.drain]
    else none
  | w :: a :: args =>
    if w = codes ['P', 'U', 'S', 'H'] then (hexBytes (a :: args)).map fun bs => [.push bs]
    else if w = codes ['R', 'N', 'G'] then (hexBytes (a :: args)).map fun bs => [.rng bs]
    else if args ≠ [] then none
    else if w = codes ['C', 'M', 'D'] then (hexByte a).map fun b => [.raw b]
    else if w = codes ['P', 'O', 'P'] then (decimal a).map fun n => [.pop n]
    else if w = codes ['R', 'D', 'R', 'E', 'G'] then (registerName a).map fun r => [.rdreg r]
    else none

/-- One line of text; a blank or comment line is no line of the script. -/
def parseLine (l : Text) : Option (List Line) :=
  let l := (dropComment l).dropWhile isBlank
  if l.takeWhile (fun c => !isBlank c) = codes ['P', 'U', 'S', 'H', 'S'] then
    match quoted (l.dropWhile fun c => !isBlank c) with
    | some text => if asciiOnly text then some [.pushs text] else none
    | none => none
  else parseWords (wordsOf l)

/-- The lines of a script, each read in turn; a line that is none of R85's is refused and with it the script. -/
def parseLines : List Text → Option (List Line)
  | [] => some []
  | l :: ls =>
    match parseLine l, parseLines ls with
    | some x, some xs => some (x ++ xs)
    | _, _ => none

/-- A whole script's text, lines ended by a line feed. -/
def parseScript (t : Text) : Option (List Line) := parseLines (cutAt (· = 10) t)

end Sys2Proof.Machine
end

