-- ==== Sys2Proof/Safety.lean ====
section
/-! DEFINITION. The predicates and views that claims about the machine are stated with: the invariant of every reachable
state (`10_state.md` R35), the reset state of the engine (R34), when ENC and DEC execute normally (R172, R173), runs of
several steps, and what a finished call of the host is (R282). -/

namespace Sys2Proof.Machine

/-- R34, R35: an engine whose five elements have their reset values. -/
structure State.EngineReset (s : State) : Prop where
  key : s.key = Key.zero
  keyv : s.keyv = false
  errcode : s.errcode = 0
  ibuf : s.ibuf = []
  obuf : s.obuf = []

/-- R35: `ERRCODE` is one of 0, 3, 4, 5, 6. -/
def errcodeLegal (e : BitVec 4) : Prop := e = 0 ∨ e = 3 ∨ e = 4 ∨ e = 5 ∨ e = 6

/-- R35: the invariants that hold in every reachable state. -/
structure State.Inv (s : State) : Prop where
  ibuf : s.ibuf.length ≤ Config.params.ibufCap
  obuf : s.obuf.length ≤ Config.params.obufCap
  key : s.keyv = false → s.key = Key.zero
  errcode : errcodeLegal s.errcode

/-- Two states that agree in everything but the value of `KEY`. -/
def SameButKey (s t : State) : Prop := t = { s with key := t.key }

/-- The host's next port operation is one of `ops`. -/
def headIs (s : State) (ops : List PortOp) : Prop := ∃ o ∈ ops, s.script.head? = some (.op o)

/-- R172: ENC executes normally: no error recorded, a key loaded, room for the frame. -/
structure EncReady (p : Params) (s : State) : Prop where
  errcode : s.errcode = 0
  keyv : s.keyv = true
  room : s.obuf.length + frameLen s.ibuf.length ≤ p.obufCap

/-- R173: DEC comes as far as its frame: no error recorded, a key loaded, room for the longest chunk. -/
structure DecReady (p : Params) (s : State) : Prop where
  errcode : s.errcode = 0
  keyv : s.keyv = true
  room : s.obuf.length + (s.ibuf.length - 17) ≤ p.obufCap

/-- The next answers of the random source are `bs`, and after them it stands at `r`. -/
def Rng.Answers (start : Rng) (bs : Bytes) (r : Rng) : Prop := start.rand bs.length = (bs, r)

/-- One pair of draws for each chunk, of the lengths ENC draws (R182, R219). -/
def drawsFit (chunks : List Bytes) (draws : List Draw) : Prop :=
  List.Forall₂ (fun c d => d.iv.length = 16 ∧ d.fill.length = padLen c.length - 1) chunks draws

/-- `k` steps of the machine, stopping at the first fault or refusal (there is none): `Host.Core.run` at this machine's own
types. -/
def runSteps : Nat → State → Outcome
  | 0, s => .next s
  | k + 1, s =>
    match step s with
    | .next t => runSteps k t
    | .fault r => .fault r
    | .refused r => .refused r

/-- A run of the machine through a whole call, from `s`: it ends with the script done, the engine in the reset state
(R282), and `answers` received meanwhile. -/
def CallEnds (s : State) (items : List HostItem) (t : State) (answers : List Answer) : Prop :=
  ∃ n, runSteps n (s.begin items) = .next t ∧ t.script = [] ∧ t.EngineReset ∧ t.received = s.received ++ answers

end Sys2Proof.Machine
end

