-- ==== Sys2Proof/Certificates/Slice0/Obligations.lean ====
section
/-! DEFINITION. The statements for the provers, in the order of the spec's files. Each docstring names the rule it
formalises; a statement that rests on a choice of the model names the log entry. -/

open Sys2Proof
open Sys2Proof.Machine

/-! ## Encoding (`30_encoding.md`) -/

/-- R80, R81: decoding takes the first byte of any sequence and reads a command exactly when that byte is the command's
word; every well-formed command comes back from its encoding. -/
def Obligations.DecodeAndEncodeAgree : Prop :=
  ∀ (bs rest : Bytes) (i : Instr), i.wellFormed = true →
    (decode bs = .ok (i, rest) ↔ bs = encode i :: rest)

/-- R81: the four words of the opcode map decode to their commands, and so do the opcode table's numbers of them, 1 to 4
at 8 bits. How a number of the table is laid out in bytes, and that only exactly one command is answered, is the model's
choice (log entry 18). -/
def Obligations.OpcodeMapWordsDecode : Prop :=
  (decodeWord 0x01 = .ok .keyld ∧ decodeWord 0x02 = .ok .enc ∧ decodeWord 0x03 = .ok .dec ∧
    decodeWord 0x04 = .ok .clr) ∧
  decodeTableWord 8 1 = some .keyld ∧ decodeTableWord 8 2 = some .enc ∧ decodeTableWord 8 3 = some .dec ∧
    decodeTableWord 8 4 = some .clr

/-- R83, R175: every word but 0x01 to 0x04 is reserved and is rejected under its own value. -/
def Obligations.ReservedWordsAreNoCommand : Prop :=
  ∀ w : Byte, commandWordDefined w = false → decodeWord w = .error (.reservedWord w)

/-! ## Port operations (`20_memory.md`, `70_reset_and_hazards.md`) -/

/-- R51: PUSH appends its byte when there is room and is otherwise a hold; nothing else changes. That a hold answers
the unchanged state, the operation still at the head of the script, is the model's choice (log entries 1, 4). -/
def Obligations.PushAppendsOneByteOrHolds : Prop :=
  ∀ (s : State) (b : Byte) (rest : List HostItem), s.script = .op (.push b) :: rest →
    (s.ibuf.length < Config.params.ibufCap →
      step s = .next { s with ibuf := s.ibuf ++ [b], script := rest }) ∧
    (s.ibuf.length = Config.params.ibufCap → step s = .next s)

/-- R52: POP returns the byte at the head and removes it; on an empty `OBUF` it is a hold. That a hold answers the
unchanged state is the model's choice (log entries 1, 4). -/
def Obligations.PopReturnsTheHeadByteOrHolds : Prop :=
  ∀ (s : State) (rest : List HostItem), s.script = .op .pop :: rest →
    (∀ b bs, s.obuf = b :: bs →
      step s = .next { s with obuf := bs, received := s.received ++ [.byte b], script := rest }) ∧
    (s.obuf = [] → step s = .next s)

/-- R53, R26, R27: RDREG returns `STATUS`, `ICNT`, `OCNT` or 0 and changes nothing of the engine. That the answer is a
natural number, and that it is kept in `received`, are the model's (log entries 1, 6, 11). -/
def Obligations.RdregReturnsRegisterAndChangesNothing : Prop :=
  ∀ (s : State) (n : BitVec 4) (rest : List HostItem), s.script = .op (.rdreg n) :: rest →
    step s = .next { s with received := s.received ++ [.word (s.register n)], script := rest } ∧
    (n = 0 → s.register n = s.status.toNat) ∧ (n = 1 → s.register n = s.ibuf.length) ∧
    (n = 2 → s.register n = s.obuf.length) ∧ (3 ≤ n.toNat → s.register n = 0)

/-- R26: `STATUS`, register number 0, is `KEYV + 16 * ERRCODE`, with `KEYV` in bit 0, `ERRCODE` in bits 7:4 and bits
3:1 and 31:8 read as 0; after reset it is 0. -/
def Obligations.StatusIsKeyvPlusSixteenErrcode : Prop :=
  (∀ s : State, s.register 0 = s.status.toNat ∧ s.status.toNat = s.keyv.toNat + 16 * s.errcode.toNat ∧
    s.status.getLsbD 0 = s.keyv ∧ s.status.extractLsb' 1 3 = 0 ∧ s.status.extractLsb' 4 4 = s.errcode ∧
    s.status.extractLsb' 8 24 = 0) ∧
  State.reset.status = 0

/-- R270, R34: RESET is accepted in every state whatever and leaves the engine's five elements at their reset values;
that the random source and what the host received are untouched is the model's reading (log entry 7). The script's
move is the model's own (log entry 1). -/
def Obligations.ResetClearsTheEngineInEveryState : Prop :=
  ∀ (s : State) (rest : List HostItem), s.script = .op .reset :: rest →
    ∃ t, step s = .next t ∧ t.EngineReset ∧ t.rng = s.rng ∧ t.received = s.received ∧ t.script = rest

/-- R85: DRAIN reads `OCNT` and then pops that many bytes: `OBUF` ends empty and the host has received its length and
then all of its bytes in order. The script and `received` are the model's own (log entries 1, 11). -/
def Obligations.DrainReturnsAllOfObuf : Prop :=
  ∀ (s : State) (rest : List HostItem), s.script = .drain :: rest →
    runSteps (s.obuf.length + 1) s =
      .next { s with
        obuf := [], script := rest,
        received := s.received ++ (.word s.obuf.length :: s.obuf.map .byte) }

/-! ## Commands (`42_commands.md`, `60_exceptions.md`) -/

/-- R170 line 2 and the model's step (log entry 1): when the word the host presents decodes to a command, the step is
that command's meaning at that state; taking the word off the script is part of the meaning. -/
def Obligations.StepRunsTheDecodedCommand : Prop :=
  ∀ (s : State) (w : Byte) (rest : List HostItem) (i : Instr), s.script = .op (.cmd w) :: rest →
    decodeWord w = .ok i → step s = exec i s

/-- R171: KEYLD with exactly 32 bytes in `IBUF` loads them as the key, whatever key was there before, and empties
`IBUF`; nothing else changes. The script's move is the model's own (log entry 1). -/
def Obligations.KeyldLoadsTheKey : Prop :=
  ∀ s : State, s.errcode = 0 → s.ibuf.length = 32 →
    exec .keyld s =
      .next { s with key := Key.ofBytes s.ibuf, keyv := true, ibuf := [], script := s.script.tail } ∧
    (Key.ofBytes s.ibuf).toList = s.ibuf

/-- R172, R182: ENC with a key and room draws an IV of 16 bytes and then the fill, and appends the frame made with
them; nothing else changes. The two draws are whatever the random source answers. The script's move and the count of
draws are the model's own (log entries 1, 3). -/
def Obligations.EncAppendsTheFrameOfItsDraws : Prop :=
  ∀ s : State, EncReady Config.params s →
    ∃ iv fill r, iv.length = 16 ∧ fill.length = padLen s.ibuf.length - 1 ∧
      s.rng.Answers (iv ++ fill) r ∧ r.drawn = s.rng.drawn + (15 + padLen s.ibuf.length) ∧
      exec .enc s =
        .next { s with
          obuf := s.obuf ++ encChunk s.key s.ibuf iv fill, ibuf := [], rng := r, script := s.script.tail }

/-- R173: DEC of a frame of whole cipher blocks whose last decrypted byte is 1 to 16 appends the plaintext less its
padding and empties `IBUF`; nothing else changes, and nothing is drawn. The script's move is the model's own (log
entry 1). -/
def Obligations.DecAppendsTheChunk : Prop :=
  ∀ (s : State) (p : Bytes) (n : Nat), DecReady Config.params s → 32 ≤ s.ibuf.length → s.ibuf.length % 16 = 0 →
    p = cbcDec s.key (s.ibuf.take 16) (s.ibuf.drop 16) → n = (p.getD (p.length - 1) 0).toNat → 1 ≤ n → n ≤ 16 →
    p.length = s.ibuf.length - 16 ∧
    exec .dec s =
      .next { s with obuf := s.obuf ++ p.take (p.length - n), ibuf := [], script := s.script.tail }

/-- R174, R34: CLR gives the engine's reset values in every state, the error state included, and never holds; that the
random source and what the host received are untouched is the model's reading (log entry 7). The script's move is the
model's own (log entry 1). -/
def Obligations.ClrGivesTheResetState : Prop :=
  ∀ s : State, ∃ t, exec .clr s = .next t ∧ t.EngineReset ∧ t.rng = s.rng ∧ t.received = s.received ∧
    t.script = s.script.tail

/-- R241, R244: every error a command can raise, in the order tested, and that the failing command changes nothing but
`ERRCODE` (R242). No room in `OBUF` is asked for: a failing command never holds (R170). The script's move is the
model's own (log entry 1). -/
def Obligations.CommandsRaiseTheirErrorsInOrder : Prop :=
  ∀ (s : State) (failWith : BitVec 4 → State),
    (∀ c, failWith c = { s with errcode := c, script := s.script.tail }) → s.errcode = 0 →
    (s.ibuf.length ≠ 32 → exec .keyld s = .next (failWith 6)) ∧
    (s.keyv = false → exec .enc s = .next (failWith 5)) ∧
    (s.keyv = false → exec .dec s = .next (failWith 5)) ∧
    (s.keyv = true → s.ibuf.length < 16 → exec .dec s = .next (failWith 3)) ∧
    (s.keyv = true → s.ibuf.length = 16 ∨ 16 < s.ibuf.length ∧ s.ibuf.length % 16 ≠ 0 →
      exec .dec s = .next (failWith 4)) ∧
    (s.keyv = true → 32 ≤ s.ibuf.length → s.ibuf.length % 16 = 0 →
      ¬ (1 ≤ padCount (cbcDec s.key (s.ibuf.take 16) (s.ibuf.drop 16)) ∧
        padCount (cbcDec s.key (s.ibuf.take 16) (s.ibuf.drop 16)) ≤ 16) →
      exec .dec s = .next (failWith 4))

/-- R175: a reserved command word with no error recorded records `IllegalCommand` (6) and nothing else; with one
recorded it is ignored. (What becomes of the host's script is the model's own, log entry 1, and is not claimed here.) -/
def Obligations.ReservedWordRecordsIllegalCommand : Prop :=
  ∀ (s : State) (w : Byte) (rest : List HostItem), s.script = .op (.cmd w) :: rest → commandWordDefined w = false →
    ∃ t, step s = .next t ∧
      (s.errcode = 0 → t = { s with errcode := 6, script := t.script }) ∧
      (s.errcode ≠ 0 → t = { s with script := t.script })

/-- R243: while `ERRCODE` is not 0 every command word except CLR's is ignored: nothing changes, nothing is drawn. The
script's move is the model's own (log entry 1). -/
def Obligations.StickyErrorIgnoresEveryCommandButClr : Prop :=
  ∀ (s : State) (w : Byte) (rest : List HostItem), s.script = .op (.cmd w) :: rest →
    s.errcode ≠ 0 → w ≠ 0x04 → step s = .next { s with script := rest }

/-- R242: whatever command word makes `ERRCODE` non-zero changes nothing else of the engine, draws nothing, and
records one of the codes 3 to 6. The script's move is the model's own (log entry 1). -/
def Obligations.AFailingCommandChangesOnlyErrcode : Prop :=
  ∀ (s t : State) (w : Byte), cmd w s = .next t → s.errcode = 0 → t.errcode ≠ 0 →
    t = { s with errcode := t.errcode, script := s.script.tail } ∧
    (t.errcode = 3 ∨ t.errcode = 4 ∨ t.errcode = 5 ∨ t.errcode = 6)

/-- R170 line 3: ENC, and DEC of a frame that decrypts, hold when there is no room, and nothing has changed. That a hold,
which in R9 has no step, answers a next state, the same state with the command still at the head of the script, is the
model's choice (log entries 1, 4). -/
def Obligations.WithoutRoomEncAndDecHold : Prop :=
  ∀ s : State, s.errcode = 0 → s.keyv = true →
    (Config.params.obufCap < s.obuf.length + frameLen s.ibuf.length → exec .enc s = .next s) ∧
    (Config.params.obufCap < s.obuf.length + (s.ibuf.length - 17) →
      ∀ chunk, decFrame s.key s.ibuf = .ok chunk → exec .dec s = .next s)

/-- R62: with the capacities an implementation may choose, an empty `OBUF` has room for the output of any one
command. -/
def Obligations.AnEmptyObufAlwaysHasRoom : Prop :=
  Config.params.wellFormed = true ∧
  ∀ s : State, s.Inv → s.obuf = [] → s.errcode = 0 → s.keyv = true →
    EncReady Config.params s ∧ DecReady Config.params s

/-- R62, R170, R52, R172: popping always makes room: with an ENC behind as many POPs as `OBUF` has bytes, the host
receives those bytes, the ENC is done after them, and `OBUF` holds exactly the frame made with the IV and the fill that
the random source answers; nothing else changes. The script's move, what the host received and the count of draws are
the model's own (log entries 1, 3, 11). -/
def Obligations.PoppingMakesRoomForEnc : Prop :=
  ∀ (s : State) (rest : List HostItem), s.Inv → s.errcode = 0 → s.keyv = true →
    s.script = List.replicate s.obuf.length (.op .pop) ++ .op (.cmd 0x02) :: rest →
    ∃ iv fill r, iv.length = 16 ∧ fill.length = padLen s.ibuf.length - 1 ∧ s.rng.Answers (iv ++ fill) r ∧
      r.drawn = s.rng.drawn + (15 + padLen s.ibuf.length) ∧
      (encChunk s.key s.ibuf iv fill).length = frameLen s.ibuf.length ∧
      runSteps (s.obuf.length + 1) s =
        .next { s with
          obuf := encChunk s.key s.ibuf iv fill, ibuf := [], rng := r, script := rest,
          received := s.received ++ s.obuf.map .byte }

/-- R83, R11: every step answers a next state: the machine has no fault and refuses no operation. A hold and an empty
script answer the unchanged state, which is the model's choice (log entries 1, 4). -/
def Obligations.EveryStepAnswersANextState : Prop :=
  (∀ (s : State) (i : Instr), ∃ t, exec i s = .next t) ∧ ∀ s : State, ∃ t, step s = .next t

/-! ## The random source (R182, R85) -/

/-- R182: the random source answers every draw, `n` bytes for `Rand(n)`, and each answer is counted once. The count is
the model's own, and that every draw is answered is assumed (log entry 3). -/
def Obligations.EveryDrawIsAnswered : Prop :=
  ∀ (r : Rng) (n : Nat), ∃ bs r', bs.length = n ∧ r.Answers bs r' ∧ r'.drawn = r.drawn + n

/-- R85 (`RNG`): the answers a directive fixes are the next ones given, in order, and then the source goes on with the
answers after them; which those are is the model's reading (log entry 5). -/
def Obligations.DirectiveFixesTheNextAnswers : Prop :=
  ∀ (r : Rng) (bs : Bytes),
    (r.fix bs).Answers bs { fixed := r.fixed.drop bs.length, drawn := r.drawn + bs.length }

/-! ## The whole machine (`10_state.md`) -/

/-- R35 at R34's state: the invariants hold at reset. -/
def Obligations.InvariantHoldsAtReset : Prop := State.reset.Inv ∧ State.reset.EngineReset

/-- R35: every step keeps the invariants: the buffers within their capacities, no key while `KEYV = 0`, `ERRCODE` one
of 0, 3, 4, 5, 6. -/
def Obligations.EveryStepKeepsTheInvariant : Prop :=
  ∀ s t : State, s.Inv → step s = .next t → t.Inv

/-- R20 "written by": each element changes only in the operations the table names, and only ENC draws (R182). The
count of draws is the model's own (log entry 3). -/
def Obligations.EachElementIsWrittenOnlyByItsOperations : Prop :=
  ∀ s t : State, step s = .next t →
    (t.key ≠ s.key ∨ t.keyv ≠ s.keyv → headIs s [.cmd 0x01, .cmd 0x04, .reset]) ∧
    (t.errcode ≠ s.errcode → (∃ w, s.script.head? = some (.op (.cmd w))) ∨ headIs s [.reset]) ∧
    (t.ibuf ≠ s.ibuf →
      (∃ b, s.script.head? = some (.op (.push b))) ∨
        headIs s [.cmd 0x01, .cmd 0x02, .cmd 0x03, .cmd 0x04, .reset]) ∧
    (t.obuf ≠ s.obuf → headIs s [.pop, .cmd 0x02, .cmd 0x03, .cmd 0x04, .reset]) ∧
    (t.rng.drawn ≠ s.rng.drawn → headIs s [.cmd 0x02])

/-- R25: nothing but POP, CLR and RESET removes bytes from `OBUF`; every other step leaves what is there and at most
appends to it. -/
def Obligations.OutputOnlyAccumulates : Prop :=
  ∀ s t : State, step s = .next t → ¬ headIs s [.pop, .cmd 0x04, .reset] → ∃ bs, t.obuf = s.obuf ++ bs

/-- R21: no step but ENC's and DEC's lets anything depend on the value of `KEY`: from two states that differ in `KEY`
alone the machine goes to two states that differ at most in `KEY`. -/
def Obligations.OnlyEncAndDecUseTheKey : Prop :=
  ∀ s t : State, SameButKey s t → ¬ headIs s [.cmd 0x02, .cmd 0x03] →
    ∃ s' t', step s = .next s' ∧ step t = .next t' ∧ SameButKey s' t'

/-- R21, R22: while `KEYV = 0` not even ENC and DEC use `KEY`. -/
def Obligations.NoStepUsesAnUnloadedKey : Prop :=
  ∀ s t : State, SameButKey s t → s.keyv = false →
    ∃ s' t', step s = .next s' ∧ step t = .next t' ∧ SameButKey s' t'

/-! ## AES-256 (`40_aes256.md`) -/

/-- R101: `gmul` is commutative and associative, distributes over exclusive or, has 1 and 0 as it should, and every
non-zero byte has exactly one inverse. -/
def Obligations.GmulIsAFieldMultiplication : Prop :=
  (∀ a b, gmul a b = gmul b a) ∧ (∀ a b c, gmul (gmul a b) c = gmul a (gmul b c)) ∧
  (∀ a b c, gmul a (b ^^^ c) = gmul a b ^^^ gmul a c) ∧ (∀ a, gmul a 1 = a ∧ gmul a 0 = 0) ∧
  (∀ a, a ≠ 0 → ∃! b, gmul a b = 1)

/-- R102: `SBOX[a]` is the affine image of the inverse of `a`. -/
def Obligations.SboxIsTheAffineImageOfTheInverse : Prop :=
  ∀ a b : Byte, (gmul a b = 1 ∨ a = 0 ∧ b = 0) →
    sbox a = b ^^^ b.rotateLeft 1 ^^^ b.rotateLeft 2 ^^^ b.rotateLeft 3 ^^^ b.rotateLeft 4 ^^^ 0x63

/-- R103: `INVSBOX` is the inverse permutation of `SBOX`. -/
def Obligations.InvSboxInvertsSbox : Prop :=
  ∀ a : Byte, invSbox (sbox a) = a ∧ sbox (invSbox a) = a

/-- R106: the schedule has 60 words: the key's own, and then each one from the words one and eight places before. -/
def Obligations.KeyExpansionFollowsItsRecurrence : Prop :=
  ∀ k : Key, (keyExpansion k).length = 60 ∧
    (∀ i < 8, (keyExpansion k)[i]? = some (Col.ofBytes k.toList (4 * i))) ∧
    ∀ i, 8 ≤ i → i < 60 → ∃ w1 w8, (keyExpansion k)[i - 1]? = some w1 ∧ (keyExpansion k)[i - 8]? = some w8 ∧
      (keyExpansion k)[i]? = some (w8.xor (scheduleCore i w1))

/-- R110: `InvMixColumns` undoes `MixColumns`, and the other way round. -/
def Obligations.InvMixColumnsInvertsMixColumns : Prop :=
  ∀ s : Block, invMixColumns (mixColumns s) = s ∧ mixColumns (invMixColumns s) = s

/-- R116: for every key and block, `AES256_Dec` and `AES256_Enc` undo each other. -/
def Obligations.AesDecryptionInvertsEncryption : Prop :=
  ∀ (k : Key) (b : Block), aesDec k (aesEnc k b) = b ∧ aesEnc k (aesDec k b) = b

/-! ## Padding, CBC, framing (`41_cbc_padding_framing.md`) -/

/-- R140: `PadLen(L) = 16 - (L mod 16)` is 1 to 16 and makes the padded length the next multiple of 16, a whole block
more where `L` is a multiple already. -/
def Obligations.PadLenRoundsUpToTheNextBlock : Prop :=
  ∀ n : Nat, padLen n = 16 - n % 16 ∧ 1 ≤ padLen n ∧ padLen n ≤ 16 ∧ n + padLen n = 16 * (n / 16 + 1) ∧
    (n % 16 = 0 → padLen n = 16)

/-- R147: unpadding a padded chunk gives the chunk, whatever the fill. -/
def Obligations.UnpadRemovesThePadding : Prop :=
  ∀ chunk fill : Bytes, fill.length = padLen chunk.length - 1 → unpad (pad chunk fill) = .ok chunk

/-- R143: CBC decryption undoes CBC encryption. -/
def Obligations.CbcDecryptionInvertsEncryption : Prop :=
  ∀ (k : Key) (iv p : Bytes), iv.length = 16 → p.length % 16 = 0 → cbcDec k iv (cbcEnc k iv p) = p

/-- R148, R144: the padded length and the ciphertext's length are the next multiple of 16, the frame's length is
`FrameLen`, 17 to 32 bytes more than the chunk's, and the frame begins with the IV. -/
def Obligations.FrameIsIvThenWholeCipherBlocks : Prop :=
  ∀ (k : Key) (chunk iv fill : Bytes), iv.length = 16 → fill.length = padLen chunk.length - 1 →
    (pad chunk fill).length = chunk.length + padLen chunk.length ∧
    (pad chunk fill).length = 16 * (chunk.length / 16 + 1) ∧
    ((encChunk k chunk iv fill).drop 16).length = 16 * (chunk.length / 16 + 1) ∧
    (encChunk k chunk iv fill).length = frameLen chunk.length ∧
    frameLen chunk.length = 16 + 16 * (chunk.length / 16 + 1) ∧
    frameLen chunk.length = chunk.length + 16 + padLen chunk.length ∧
    chunk.length + 17 ≤ frameLen chunk.length ∧ frameLen chunk.length ≤ chunk.length + 32 ∧
    (encChunk k chunk iv fill).take 16 = iv

/-- R146, R152: what `DecFrame` accepts is decided by the frame's length and the last decrypted byte alone, and what it
returns is the plaintext less its padding. -/
def Obligations.DecFrameAcceptsByLengthAndLastByteAlone : Prop :=
  ∀ (k : Key) (f chunk p : Bytes), p = cbcDec k (f.take 16) (f.drop 16) →
    (decFrame k f = .ok chunk ↔
      32 ≤ f.length ∧ f.length % 16 = 0 ∧ 1 ≤ padCount p ∧ padCount p ≤ 16 ∧
        chunk = p.take (p.length - padCount p))

/-- R149: decrypting a frame under its own key gives its chunk. -/
def Obligations.DecFrameRecoversTheChunk : Prop :=
  ∀ (k : Key) (chunk iv fill : Bytes), iv.length = 16 → fill.length = padLen chunk.length - 1 →
    decFrame k (encChunk k chunk iv fill) = .ok chunk

/-- R150: for a fixed key and chunk, different draws give different frames. -/
def Obligations.DifferentDrawsGiveDifferentFrames : Prop :=
  ∀ (k : Key) (chunk iv fill iv' fill' : Bytes), iv.length = 16 → iv'.length = 16 →
    fill.length = padLen chunk.length - 1 → fill'.length = padLen chunk.length - 1 →
    encChunk k chunk iv fill = encChunk k chunk iv' fill' → iv = iv' ∧ fill = fill'

/-- R149 on the machine (R172, R173): the frame an ENC appends, given to a DEC of any later state that holds the same
key, appends the chunk that ENC took. The script's move is the model's own (log entry 1). -/
def Obligations.DecOfAnEncFrameReturnsTheChunk : Prop :=
  ∀ s t u : State, EncReady Config.params s → exec .enc s = .next t → DecReady Config.params u → u.key = s.key →
    u.ibuf = t.obuf.drop s.obuf.length →
    exec .dec u = .next { u with obuf := u.obuf ++ s.ibuf, ibuf := [], script := u.script.tail }

/-! ## The host codec layer (`43_host_codec.md`) -/

/-- R204: the closed form of the derived key of a password of 6 to 31 characters; R202: one of 32 or more gives its
first 32. -/
def Obligations.DeriveHasItsClosedForm : Prop :=
  ∀ (pw : Text), asciiOnly pw = true → 6 ≤ pw.length →
    ∃ k, derive pw = .ok k ∧ ∀ j (h : j < 32),
      k[j] = BitVec.ofNat 8 (if j < pw.length then pw.getD j 0 else alpha (20 * j % 32))

/-- R202, R205: a shorter password fails with `InvalidPassword`; one with a character above 127 is refused. -/
def Obligations.DeriveRejectsShortAndNonAsciiPasswords : Prop :=
  ∀ pw : Text,
    (asciiOnly pw = true → pw.length < 6 → derive pw = .error (.failed .invalidPassword)) ∧
    (asciiOnly pw = false → derive pw = .error (.refused .passwordOutsideAscii))

/-- R207: `B64Dec` succeeds exactly on what `B64Enc` writes, and otherwise raises `MalformedBlock`. -/
def Obligations.B64DecIsTheStrictInverse : Prop :=
  ∀ t : Text, (∀ f, b64Dec t = .ok f ↔ t = b64Enc f) ∧
    ((∀ f, t ≠ b64Enc f) → b64Dec t = .error .malformedBlock)

/-- R206: the text of `n` bytes has `4 * ceil(n / 3)` characters. -/
def Obligations.B64LengthIsFourPerThreeBytes : Prop :=
  ∀ f : Bytes, (b64Enc f).length = 4 * ((f.length + 2) / 3)

/-- R209: the chunks in order are the payload; there are `ceil(len / N)`; each has 1 to `N` bytes, and all but the last
have `N`. -/
def Obligations.SplitCutsThePayloadIntoChunks : Prop :=
  ∀ (payload : Bytes) (n : Nat), 1 ≤ n →
    (split payload n).flatten = payload ∧ (split payload n).length = (payload.length + (n - 1)) / n ∧
    (∀ c ∈ split payload n, 1 ≤ c.length ∧ c.length ≤ n) ∧
    ∀ c ∈ (split payload n).dropLast, c.length = n

/-- R210: a capacity of 48 or less fails, whatever the payload, and no port operation is issued; from 49 on the call
succeeds. -/
def Obligations.CapacityMustExceedTheOverhead : Prop :=
  ∀ (p : Params) (payload : Bytes) (k : Key) (cap : Int) (draws : List Draw),
    (cap ≤ 48 →
      encryptCall payload k cap draws = .error (.failed .chunkCapacityTooSmall) ∧
      startEncrypt p payload k cap = .error (.failed .chunkCapacityTooSmall)) ∧
    (49 ≤ cap → ∃ blocks, encryptCall payload k cap draws = .ok blocks)

/-- R214: `Decrypt` returns the chunks in the order of the blocks given, whatever that order is: no block records its
place. -/
def Obligations.DecryptFollowsTheOrderOfTheBlocks : Prop :=
  ∀ (k : Key) (chunks : List Bytes) (draws : List Draw), drawsFit chunks draws →
    decryptCall (List.zipWith (encryptChunk k) chunks draws) k = .ok chunks.flatten

/-- R219, R244: the first failing block ends the call with its kind, whatever stands after it. -/
def Obligations.DecryptReportsTheFirstFailure : Prop :=
  ∀ (k : Key) (good later : List Text) (bad : Text) (payload : Bytes) (e : ErrorKind),
    decryptCall good k = .ok payload → decryptBlock k bad = .error e →
    decryptCall (good ++ bad :: later) k = .error (.failed e)

/-- R218.1: for every payload, every password in the domain, every capacity above 48 and all draws, decrypting what was
encrypted gives the payload. -/
def Obligations.DecryptOfEncryptReturnsThePayload : Prop :=
  ∀ (payload : Bytes) (pw : Text) (cap : Int) (draws : List Draw), asciiOnly pw = true → 6 ≤ pw.length → 49 ≤ cap →
    drawsFit (split payload (chunkSize cap)) draws →
    ∃ k blocks, derive pw = .ok k ∧ encryptCall payload k cap draws = .ok blocks ∧
      decryptCall blocks k = .ok payload

/-- R218.3: two encryptions of one non-empty payload with different draws give different block sequences, and both
decrypt to the payload. -/
def Obligations.DifferentDrawsGiveDifferentBlocks : Prop :=
  ∀ (payload : Bytes) (k : Key) (cap : Int) (d d' : List Draw) (blocks blocks' : List Text),
    drawsFit (split payload (chunkSize cap)) d → drawsFit (split payload (chunkSize cap)) d' → d ≠ d' →
    encryptCall payload k cap d = .ok blocks → encryptCall payload k cap d' = .ok blocks' →
    blocks ≠ blocks' ∧ decryptCall blocks k = .ok payload ∧ decryptCall blocks' k = .ok payload

/-- R208, R219: the `Encrypt` driver, run on the machine from any state, computes the reference function on the bytes
the random source answers. The host's script and what it received are the model's own (log entries 1, 11). -/
def Obligations.EncryptDriverComputesTheReference : Prop :=
  ∀ (s : State) (payload : Bytes) (k : Key) (cap : Int) (items : List HostItem),
    startEncrypt Config.params payload k cap = .ok items →
    ∃ t answers draws, CallEnds s items t answers ∧ drawsFit (split payload (chunkSize cap)) draws ∧
      s.rng.Answers (draws.flatMap fun d => d.iv ++ d.fill) t.rng ∧
      encryptCall payload k cap draws = .ok (encryptResult answers)

/-- R212, R219: the `Decrypt` driver, run on the machine from any state, computes the reference function, its failures
included, and draws nothing. The host's script and what it received are the model's own (log entries 1, 11), and when
the driver drains is the model's choice (log entry 14). -/
def Obligations.DecryptDriverComputesTheReference : Prop :=
  ∀ (s : State) (blocks : List Text) (k : Key) (items : List HostItem),
    startDecrypt Config.params blocks k = .ok items →
    ∃ t answers, CallEnds s items t answers ∧ t.rng = s.rng ∧
      decryptResult (drainsEach Config.params blocks) blocks answers = decryptCall blocks k
end

