-- ==== Sys2Proof/Laws/Aes.lean ====
section
/-! SUPPORT. The small lemmas of the block cipher's parts: exclusive or on words and blocks, a block and its 16 bytes,
and the round operations that undo one another by rearrangement or table. -/

namespace Sys2Proof.Machine

/-! ## Exclusive or -/

@[simp] theorem Col.xor_xor (a b : Col) : (a.xor b).xor b = a := by
  simp [Col.xor]

/-- R107: `AddRoundKey` is its own inverse. -/
@[simp] theorem Block.xor_xor (a b : Block) : (a.xor b).xor b = a := by simp [Block.xor]

theorem Block.xor_left_injective (b : Block) : Function.Injective (Block.xor · b) := fun x y h => by
  have := congrArg (Block.xor · b) h
  simpa using this

@[simp] theorem addRoundKey_addRoundKey (s k : Block) : addRoundKey (addRoundKey s k) k = s := Block.xor_xor s k

/-! ## A block and its bytes -/

@[simp] theorem Block.toBytes_length (b : Block) : b.toBytes.length = 16 := rfl

/-- R105: reading a block out and loading it back. -/
@[simp] theorem Block.ofBytes_toBytes (b : Block) : Block.ofBytes b.toBytes = b := rfl

/-- R105: loading 16 bytes and reading them out. -/
theorem Block.toBytes_ofBytes {s : Bytes} (h : s.length = 16) : (Block.ofBytes s).toBytes = s := by
  match s, h with
  | [_, _, _, _, _, _, _, _, _, _, _, _, _, _, _, _], _ => rfl

/-- R21: a key loaded from 32 bytes is those bytes. -/
theorem Key.toList_ofBytes {s : Bytes} (h : s.length = 32) : (Key.ofBytes s).toList = s := by
  show s.takeD 32 0 = s
  rw [List.takeD_eq_take 0 (by omega), List.take_of_length_le (by omega)]

/-! ## Operations that undo one another -/

@[simp] theorem invShiftRows_shiftRows (s : Block) : invShiftRows (shiftRows s) = s := rfl

@[simp] theorem shiftRows_invShiftRows (s : Block) : shiftRows (invShiftRows s) = s := rfl

/-- R103 lifted to a block: `InvSubBytes` undoes `SubBytes` wherever the two tables undo each other. -/
theorem Block.map_map_of_inverse {f g : Byte → Byte} (h : ∀ a, g (f a) = a) (s : Block) : (s.map f).map g = s := by
  simp [Block.map, Col.map, h]

end Sys2Proof.Machine
end

