-- ==== Sys2Proof/Laws/State.lean ====
section
/-! SUPPORT. The small lemmas of the state's updates: what each leaves in each field. They are true by unfolding the
record update once, here, so that no later proof does. -/

namespace Sys2Proof.Machine

variable (s : State)

/-! `State.retire` -/

@[simp] theorem State.retire_key : s.retire.key = s.key := rfl
@[simp] theorem State.retire_keyv : s.retire.keyv = s.keyv := rfl
@[simp] theorem State.retire_errcode : s.retire.errcode = s.errcode := rfl
@[simp] theorem State.retire_ibuf : s.retire.ibuf = s.ibuf := rfl
@[simp] theorem State.retire_obuf : s.retire.obuf = s.obuf := rfl
@[simp] theorem State.retire_rng : s.retire.rng = s.rng := rfl
@[simp] theorem State.retire_script : s.retire.script = s.script.tail := rfl
@[simp] theorem State.retire_received : s.retire.received = s.received := rfl

/-! `State.record` -/

@[simp] theorem State.record_key (k : ErrorKind) : (s.record k).key = s.key := rfl
@[simp] theorem State.record_keyv (k : ErrorKind) : (s.record k).keyv = s.keyv := rfl
@[simp] theorem State.record_errcode (k : ErrorKind) : (s.record k).errcode = k.code := rfl
@[simp] theorem State.record_ibuf (k : ErrorKind) : (s.record k).ibuf = s.ibuf := rfl
@[simp] theorem State.record_obuf (k : ErrorKind) : (s.record k).obuf = s.obuf := rfl
@[simp] theorem State.record_rng (k : ErrorKind) : (s.record k).rng = s.rng := rfl
@[simp] theorem State.record_script (k : ErrorKind) : (s.record k).script = s.script := rfl
@[simp] theorem State.record_received (k : ErrorKind) : (s.record k).received = s.received := rfl

/-! `State.cleared` -/

@[simp] theorem State.cleared_key : s.cleared.key = Key.zero := rfl
@[simp] theorem State.cleared_keyv : s.cleared.keyv = false := rfl
@[simp] theorem State.cleared_errcode : s.cleared.errcode = 0 := rfl
@[simp] theorem State.cleared_ibuf : s.cleared.ibuf = [] := rfl
@[simp] theorem State.cleared_obuf : s.cleared.obuf = [] := rfl
@[simp] theorem State.cleared_rng : s.cleared.rng = s.rng := rfl
@[simp] theorem State.cleared_script : s.cleared.script = s.script := rfl
@[simp] theorem State.cleared_received : s.cleared.received = s.received := rfl

/-! `State.answer` -/

@[simp] theorem State.answer_key (a : Answer) : (s.answer a).key = s.key := rfl
@[simp] theorem State.answer_keyv (a : Answer) : (s.answer a).keyv = s.keyv := rfl
@[simp] theorem State.answer_errcode (a : Answer) : (s.answer a).errcode = s.errcode := rfl
@[simp] theorem State.answer_ibuf (a : Answer) : (s.answer a).ibuf = s.ibuf := rfl
@[simp] theorem State.answer_obuf (a : Answer) : (s.answer a).obuf = s.obuf := rfl
@[simp] theorem State.answer_rng (a : Answer) : (s.answer a).rng = s.rng := rfl
@[simp] theorem State.answer_script (a : Answer) : (s.answer a).script = s.script := rfl
@[simp] theorem State.answer_received (a : Answer) : (s.answer a).received = s.received ++ [a] := rfl

/-! `State.consume` -/

@[simp] theorem State.consume_key : s.consume.key = s.key := rfl
@[simp] theorem State.consume_keyv : s.consume.keyv = s.keyv := rfl
@[simp] theorem State.consume_errcode : s.consume.errcode = s.errcode := rfl
@[simp] theorem State.consume_ibuf : s.consume.ibuf = [] := rfl
@[simp] theorem State.consume_obuf : s.consume.obuf = s.obuf := rfl
@[simp] theorem State.consume_rng : s.consume.rng = s.rng := rfl
@[simp] theorem State.consume_script : s.consume.script = s.script := rfl
@[simp] theorem State.consume_received : s.consume.received = s.received := rfl

/-! `State.produce` -/

@[simp] theorem State.produce_key (bs : Bytes) : (s.produce bs).key = s.key := rfl
@[simp] theorem State.produce_keyv (bs : Bytes) : (s.produce bs).keyv = s.keyv := rfl
@[simp] theorem State.produce_errcode (bs : Bytes) : (s.produce bs).errcode = s.errcode := rfl
@[simp] theorem State.produce_ibuf (bs : Bytes) : (s.produce bs).ibuf = s.ibuf := rfl
@[simp] theorem State.produce_obuf (bs : Bytes) : (s.produce bs).obuf = s.obuf ++ bs := rfl
@[simp] theorem State.produce_rng (bs : Bytes) : (s.produce bs).rng = s.rng := rfl
@[simp] theorem State.produce_script (bs : Bytes) : (s.produce bs).script = s.script := rfl
@[simp] theorem State.produce_received (bs : Bytes) : (s.produce bs).received = s.received := rfl

/-! `State.loadKey` -/

@[simp] theorem State.loadKey_key (k : Key) : (s.loadKey k).key = k := rfl
@[simp] theorem State.loadKey_keyv (k : Key) : (s.loadKey k).keyv = true := rfl
@[simp] theorem State.loadKey_errcode (k : Key) : (s.loadKey k).errcode = s.errcode := rfl
@[simp] theorem State.loadKey_ibuf (k : Key) : (s.loadKey k).ibuf = s.ibuf := rfl
@[simp] theorem State.loadKey_obuf (k : Key) : (s.loadKey k).obuf = s.obuf := rfl
@[simp] theorem State.loadKey_rng (k : Key) : (s.loadKey k).rng = s.rng := rfl
@[simp] theorem State.loadKey_script (k : Key) : (s.loadKey k).script = s.script := rfl
@[simp] theorem State.loadKey_received (k : Key) : (s.loadKey k).received = s.received := rfl

/-! `State.withRng` -/

@[simp] theorem State.withRng_key (r : Rng) : (s.withRng r).key = s.key := rfl
@[simp] theorem State.withRng_keyv (r : Rng) : (s.withRng r).keyv = s.keyv := rfl
@[simp] theorem State.withRng_errcode (r : Rng) : (s.withRng r).errcode = s.errcode := rfl
@[simp] theorem State.withRng_ibuf (r : Rng) : (s.withRng r).ibuf = s.ibuf := rfl
@[simp] theorem State.withRng_obuf (r : Rng) : (s.withRng r).obuf = s.obuf := rfl
@[simp] theorem State.withRng_rng (r : Rng) : (s.withRng r).rng = r := rfl
@[simp] theorem State.withRng_script (r : Rng) : (s.withRng r).script = s.script := rfl
@[simp] theorem State.withRng_received (r : Rng) : (s.withRng r).received = s.received := rfl

/-! `State.insert` -/

@[simp] theorem State.insert_key (o : PortOp) : (s.insert o).key = s.key := rfl
@[simp] theorem State.insert_keyv (o : PortOp) : (s.insert o).keyv = s.keyv := rfl
@[simp] theorem State.insert_errcode (o : PortOp) : (s.insert o).errcode = s.errcode := rfl
@[simp] theorem State.insert_ibuf (o : PortOp) : (s.insert o).ibuf = s.ibuf := rfl
@[simp] theorem State.insert_obuf (o : PortOp) : (s.insert o).obuf = s.obuf := rfl
@[simp] theorem State.insert_rng (o : PortOp) : (s.insert o).rng = s.rng := rfl
@[simp] theorem State.insert_script (o : PortOp) : (s.insert o).script = .op o :: s.script := rfl
@[simp] theorem State.insert_received (o : PortOp) : (s.insert o).received = s.received := rfl

/-! `State.begin` -/

@[simp] theorem State.begin_key (items : List HostItem) : (s.begin items).key = s.key := rfl
@[simp] theorem State.begin_keyv (items : List HostItem) : (s.begin items).keyv = s.keyv := rfl
@[simp] theorem State.begin_errcode (items : List HostItem) : (s.begin items).errcode = s.errcode := rfl
@[simp] theorem State.begin_ibuf (items : List HostItem) : (s.begin items).ibuf = s.ibuf := rfl
@[simp] theorem State.begin_obuf (items : List HostItem) : (s.begin items).obuf = s.obuf := rfl
@[simp] theorem State.begin_rng (items : List HostItem) : (s.begin items).rng = s.rng := rfl
@[simp] theorem State.begin_script (items : List HostItem) : (s.begin items).script = items := rfl
@[simp] theorem State.begin_received (items : List HostItem) : (s.begin items).received = s.received := rfl

/-! `State.reset` -/

@[simp] theorem State.reset_key : State.reset.key = Key.zero := rfl
@[simp] theorem State.reset_keyv : State.reset.keyv = false := rfl
@[simp] theorem State.reset_errcode : State.reset.errcode = 0 := rfl
@[simp] theorem State.reset_ibuf : State.reset.ibuf = [] := rfl
@[simp] theorem State.reset_obuf : State.reset.obuf = [] := rfl
@[simp] theorem State.reset_rng : State.reset.rng = ⟨[], 0⟩ := rfl
@[simp] theorem State.reset_script : State.reset.script = [] := rfl
@[simp] theorem State.reset_received : State.reset.received = [] := rfl

/-! The operands read the fields they name. -/

@[simp] theorem State.dataOperand_eq : s.dataOperand = s.ibuf := rfl
@[simp] theorem State.keyOperand_eq : s.keyOperand = s.key := rfl
@[simp] theorem State.encOutBound_eq : s.encOutBound = frameLen s.ibuf.length := rfl
@[simp] theorem State.decOutBound_eq : s.decOutBound = s.ibuf.length - 17 := rfl

theorem State.hasRoom_iff (p : Params) (n : Nat) : s.hasRoom p n = true ↔ s.obuf.length + n ≤ p.obufCap := by
  simp [State.hasRoom]

end Sys2Proof.Machine
end

