-- ==== Sys2Proof/Laws/Ops.lean ====
section
/-! SUPPORT. What the shared operations can do, said once: how an operation ends, the sticky error, and the draws of the
random source. -/

namespace Sys2Proof.Machine

/-! ## How an operation ends -/

@[simp] theorem done_eq (s : State) : done s = .next s.retire := rfl
@[simp] theorem held_eq (s : State) : held s = .next s := rfl
@[simp] theorem raise_eq (k : ErrorKind) (s : State) : raise k s = .next (s.record k).retire := rfl

/-- R243: while an error is recorded the body is not run. -/
theorem unlessError_of_error {s : State} (h : s.errcode ≠ 0) (body : Outcome) :
    unlessError s body = .next s.retire := if_pos h

/-- R170: with no error recorded the body is what happens. -/
theorem unlessError_of_clear {s : State} (h : s.errcode = 0) (body : Outcome) : unlessError s body = body :=
  if_neg (not_not.mpr h)

/-- The two ways a guarded command ends. -/
theorem unlessError_cases {s t : State} {body : Outcome} (h : unlessError s body = .next t) :
    (s.errcode ≠ 0 ∧ t = s.retire) ∨ (s.errcode = 0 ∧ body = .next t) := by
  by_cases he : s.errcode = 0
  · exact .inr ⟨he, by rwa [unlessError_of_clear he] at h⟩
  · rw [unlessError_of_error he] at h
    exact .inl ⟨he, (Host.Outcome.next.inj h).symm⟩

/-! ## Error codes -/

/-- R240: the codes are 1 to 6, so a recorded error is never code 0. -/
theorem ErrorKind.code_ne_zero (k : ErrorKind) : k.code ≠ 0 := by cases k <;> decide

/-- R240: distinct kinds have distinct codes. -/
theorem ErrorKind.code_injective : Function.Injective ErrorKind.code := by
  intro a b h; revert h; cases a <;> cases b <;> decide

/-! ## The random source -/

@[simp] theorem Rng.rand_zero (r : Rng) : Rng.rand 0 r = ([], r) := rfl

theorem Rng.rand_succ (n : Nat) (r : Rng) :
    Rng.rand (n + 1) r = (r.next.1 :: (Rng.rand n r.next.2).1, (Rng.rand n r.next.2).2) := rfl

@[simp] theorem Rng.next_drawn (r : Rng) : r.next.2.drawn = r.drawn + 1 := by
  unfold Rng.next; split <;> rfl

/-- `Rand(n)` answers `n` bytes. -/
@[simp] theorem Rng.rand_length (n : Nat) (r : Rng) : (Rng.rand n r).1.length = n := by
  induction n generalizing r with
  | zero => rfl
  | succ n ih => simp [Rng.rand_succ, ih]

/-- `Rand(n)` counts `n` draws. -/
@[simp] theorem Rng.rand_drawn (n : Nat) (r : Rng) : (Rng.rand n r).2.drawn = r.drawn + n := by
  induction n generalizing r with
  | zero => rfl
  | succ n ih => simp [Rng.rand_succ, ih]; omega

/-- Drawing `m` bytes and then `n` is drawing `m + n`. -/
theorem Rng.rand_add (m n : Nat) (r : Rng) :
    Rng.rand (m + n) r = ((Rng.rand m r).1 ++ (Rng.rand n (Rng.rand m r).2).1, (Rng.rand n (Rng.rand m r).2).2) := by
  induction m generalizing r with
  | zero => simp
  | succ m ih => rw [Nat.succ_add, Rng.rand_succ, ih, Rng.rand_succ]; rfl

end Sys2Proof.Machine
end

