-- ==== Sys2Proof/Laws/Commands.lean ====
section
/-! SUPPORT. What the commands and the port operations can do, said once for each: every way they end in a next state,
with its condition. Later proofs cite these and do not unfold the meanings. -/

namespace Sys2Proof.Machine

/-- R171: the three ways KEYLD ends. -/
theorem execKeyld_cases {s t : State} (h : execKeyld s = .next t) :
    (s.errcode ≠ 0 ∧ t = s.retire) ∨
    (s.errcode = 0 ∧ s.ibuf.length ≠ 32 ∧ t = (s.record .illegalCommand).retire) ∨
    (s.errcode = 0 ∧ s.ibuf.length = 32 ∧ t = ((s.loadKey (Key.ofBytes s.ibuf)).consume).retire) := by
  obtain h | ⟨he, h⟩ := unlessError_cases h
  · exact .inl h
  · by_cases hl : s.ibuf.length = 32
    · exact .inr (.inr ⟨he, hl, by simpa [hl] using h.symm⟩)
    · exact .inr (.inl ⟨he, hl, by simpa [hl] using h.symm⟩)

/-- R172: the four ways ENC ends, a hold among them. -/
theorem encIn_cases {p : Params} {s t : State} (h : encIn p s = .next t) :
    (s.errcode ≠ 0 ∧ t = s.retire) ∨
    (s.errcode = 0 ∧ s.keyv = false ∧ t = (s.record .noKey).retire) ∨
    (s.errcode = 0 ∧ s.keyv = true ∧ s.obuf.length + frameLen s.ibuf.length ≤ p.obufCap ∧ t = (encrypt s).retire) ∨
    (s.errcode = 0 ∧ s.keyv = true ∧ p.obufCap < s.obuf.length + frameLen s.ibuf.length ∧ t = s) := by
  obtain h | ⟨he, h⟩ := unlessError_cases h
  · exact .inl h
  · cases hk : s.keyv with
    | false => exact .inr (.inl ⟨he, rfl, by simpa [hk] using h.symm⟩)
    | true =>
      by_cases hr : s.obuf.length + frameLen s.ibuf.length ≤ p.obufCap
      · exact .inr (.inr (.inl ⟨he, rfl, hr, by simpa [hk, State.hasRoom, hr] using h.symm⟩))
      · exact .inr (.inr (.inr ⟨he, rfl, not_le.mp hr, by simpa [hk, State.hasRoom, hr] using h.symm⟩))

/-- R173: the five ways DEC ends, a hold among them. -/
theorem decIn_cases {p : Params} {s t : State} (h : decIn p s = .next t) :
    (s.errcode ≠ 0 ∧ t = s.retire) ∨
    (s.errcode = 0 ∧ s.keyv = false ∧ t = (s.record .noKey).retire) ∨
    (s.errcode = 0 ∧ s.keyv = true ∧ ∃ k, decFrame s.key s.ibuf = .error k ∧ t = (s.record k).retire) ∨
    (s.errcode = 0 ∧ s.keyv = true ∧ ∃ chunk, decFrame s.key s.ibuf = .ok chunk ∧
      s.obuf.length + (s.ibuf.length - 17) ≤ p.obufCap ∧ t = (deliver chunk s).retire) ∨
    (s.errcode = 0 ∧ s.keyv = true ∧ ∃ chunk, decFrame s.key s.ibuf = .ok chunk ∧
      p.obufCap < s.obuf.length + (s.ibuf.length - 17) ∧ t = s) := by
  obtain h | ⟨he, h⟩ := unlessError_cases h
  · exact .inl h
  · cases hk : s.keyv with
    | false => exact .inr (.inl ⟨he, rfl, by simpa [hk] using h.symm⟩)
    | true =>
      cases hd : decFrame s.key s.ibuf with
      | error k => exact .inr (.inr (.inl ⟨he, rfl, k, rfl, by simpa [hk, hd] using h.symm⟩))
      | ok c =>
        by_cases hr : s.obuf.length + (s.ibuf.length - 17) ≤ p.obufCap
        · exact .inr (.inr (.inr (.inl ⟨he, rfl, c, rfl, hr, by simpa [hk, hd, State.hasRoom, hr] using h.symm⟩)))
        · exact .inr (.inr (.inr (.inr
            ⟨he, rfl, c, rfl, not_le.mp hr, by simpa [hk, hd, State.hasRoom, hr] using h.symm⟩)))

/-- R174: the one way CLR ends. -/
@[simp] theorem execClr_eq (s : State) : execClr s = .next s.cleared.retire := rfl

/-- R175: the two ways a reserved word ends. -/
theorem execReserved_cases {s t : State} (h : execReserved s = .next t) :
    (s.errcode ≠ 0 ∧ t = s.retire) ∨ (s.errcode = 0 ∧ t = (s.record .illegalCommand).retire) := by
  obtain h | ⟨he, h⟩ := unlessError_cases h
  · exact .inl h
  · exact .inr ⟨he, by simpa using h.symm⟩

/-- R51: the two ways PUSH ends. -/
theorem pushIn_cases {p : Params} {b : Byte} {s t : State} (h : pushIn p b s = .next t) :
    (s.ibuf.length < p.ibufCap ∧ t = ({ s with ibuf := s.ibuf ++ [b] } : State).retire) ∨
    (p.ibufCap ≤ s.ibuf.length ∧ t = s) := by
  simp only [pushIn, done_eq, held_eq] at h
  split at h <;> rename_i hl <;> cases h
  · exact .inl ⟨hl, rfl⟩
  · exact .inr ⟨not_lt.mp hl, rfl⟩

/-- R52: the two ways POP ends. -/
theorem pop_cases {s t : State} (h : pop s = .next t) :
    (s.obuf = [] ∧ t = s) ∨
    (∃ b rest, s.obuf = b :: rest ∧ t = (({ s with obuf := rest } : State).answer (.byte b)).retire) := by
  simp only [pop, done_eq, held_eq] at h
  split at h <;> rename_i ho <;> cases h
  · exact .inl ⟨ho, rfl⟩
  · exact .inr ⟨_, _, ho, rfl⟩

/-- R53: the one way RDREG ends. -/
@[simp] theorem rdreg_eq (n : BitVec 4) (s : State) :
    rdreg n s = .next (s.answer (.word (s.register n))).retire := rfl

/-- R270: the one way RESET ends. -/
@[simp] theorem reset_eq (s : State) : reset s = .next s.cleared.retire := rfl

/-- The words of R81 decode to their commands. -/
theorem decodeWord_ok_iff (w : Byte) (i : Instr) : decodeWord w = .ok i ↔ w = encode i := by
  unfold decodeWord
  split_ifs <;> cases i <;> simp_all [encode]

/-- R170: a command word is one of the four commands or reserved. -/
theorem cmd_cases (w : Byte) (s : State) :
    (∃ i, w = encode i ∧ cmd w s = exec i s) ∨ ((∀ i, w ≠ encode i) ∧ cmd w s = execReserved s) := by
  unfold cmd
  split
  · rename_i i h; exact .inl ⟨i, (decodeWord_ok_iff w i).mp h, rfl⟩
  · rename_i e h
    refine .inr ⟨fun i hw => ?_, rfl⟩
    rw [(decodeWord_ok_iff w i).mpr hw] at h
    cases h

/-- R170: the word of a command issues that command. -/
@[simp] theorem cmd_encode (i : Instr) (s : State) : cmd (encode i) s = exec i s := by
  have h : decodeWord (encode i) = .ok i := (decodeWord_ok_iff _ i).mpr rfl
  simp [cmd, h]

end Sys2Proof.Machine
end

