-- ==== Sys2Proof/Laws/Framing.lean ====
section
/-! SUPPORT. Lengths of what the padding unit, CBC and framing produce, and the passage between a byte sequence and its
cipher blocks. -/

namespace Sys2Proof.Machine

/-! ## Lengths -/

/-- R140: the pad count is 1 to 16. -/
theorem padLen_pos (n : Nat) : 1 ≤ padLen n := by unfold padLen; omega

theorem padLen_le (n : Nat) : padLen n ≤ 16 := by unfold padLen; omega

/-- R141: the padded length. -/
theorem pad_length {chunk fill : Bytes} (h : fill.length = padLen chunk.length - 1) :
    (pad chunk fill).length = chunk.length + padLen chunk.length := by
  have := padLen_pos chunk.length
  simp [pad, h]; omega

@[simp] theorem blocksToBytes_nil : blocksToBytes [] = [] := rfl

@[simp] theorem blocksToBytes_cons (b : Block) (bs : List Block) :
    blocksToBytes (b :: bs) = b.toBytes ++ blocksToBytes bs := rfl

@[simp] theorem blocksToBytes_length (bs : List Block) : (blocksToBytes bs).length = 16 * bs.length := by
  induction bs with
  | nil => rfl
  | cons b bs ih => simp [ih]; omega

@[simp] theorem toBlocks_length (m : Nat) (s : Bytes) : (toBlocks m s).length = m := by
  induction m generalizing s with
  | zero => rfl
  | succ m ih => simp [toBlocks, ih]

@[simp] theorem cbcEncBlocks_length (rks : List Block) (cv : Block) (xs : List Block) :
    (cbcEncBlocks rks cv xs).length = xs.length := by
  induction xs generalizing cv with
  | nil => rfl
  | cons x xs ih => simp [cbcEncBlocks, ih]

@[simp] theorem cbcDecBlocks_length (rks : List Block) (cv : Block) (cs : List Block) :
    (cbcDecBlocks rks cv cs).length = cs.length := by
  induction cs generalizing cv with
  | nil => rfl
  | cons c cs ih => simp [cbcDecBlocks, ih]

/-- R142: the ciphertext has as many whole cipher blocks as the plaintext. -/
@[simp] theorem cbcEnc_length (k : Key) (iv p : Bytes) : (cbcEnc k iv p).length = 16 * (p.length / 16) := by
  simp [cbcEnc]

/-- R143: the plaintext has as many whole cipher blocks as the ciphertext. -/
@[simp] theorem cbcDec_length (k : Key) (iv c : Bytes) : (cbcDec k iv c).length = 16 * (c.length / 16) := by
  simp [cbcDec]

/-! ## A sequence and its cipher blocks -/

/-- Cutting written-out blocks gives the blocks back. -/
@[simp] theorem toBlocks_blocksToBytes (bs : List Block) : toBlocks bs.length (blocksToBytes bs) = bs := by
  induction bs with
  | nil => rfl
  | cons b bs ih =>
    rw [List.length_cons, toBlocks, blocksToBytes_cons, List.take_left' b.toBytes_length,
      List.drop_left' b.toBytes_length, ih, Block.ofBytes_toBytes]

/-- Writing out the blocks of a sequence of `m` whole blocks gives the sequence back. -/
theorem blocksToBytes_toBlocks {m : Nat} {s : Bytes} (h : s.length = 16 * m) : blocksToBytes (toBlocks m s) = s := by
  induction m generalizing s with
  | zero => exact (List.length_eq_zero_iff.mp h).symm
  | succ m ih =>
    rw [toBlocks, blocksToBytes_cons, ih (by simp; omega), Block.toBytes_ofBytes (by simp; omega),
      List.take_append_drop]

/-! ## What DecFrame answers -/

/-- R146: the three ways `DecFrame` ends, with their conditions. -/
theorem decFrame_cases (k : Key) (f : Bytes) :
    (f.length < 16 ∧ decFrame k f = .error .malformedBlock) ∨
    (16 ≤ f.length ∧ (f.length = 16 ∨ f.length % 16 ≠ 0) ∧ decFrame k f = .error .decryptionFailed) ∨
    (32 ≤ f.length ∧ f.length % 16 = 0 ∧ decFrame k f = unpad (cbcDec k (f.take 16) (f.drop 16))) := by
  by_cases h1 : f.length < 16
  · exact .inl ⟨h1, by simp [decFrame, h1]⟩
  · by_cases h2 : f.length = 16 ∨ f.length % 16 ≠ 0
    · refine .inr (.inl ⟨not_lt.mp h1, h2, ?_⟩)
      rw [decFrame, if_neg h1, if_pos]
      simp only [unframe, List.length_drop]
      omega
    · refine .inr (.inr ⟨by omega, by omega, ?_⟩)
      rw [decFrame, if_neg h1, if_neg]
      · rfl
      · simp only [unframe, List.length_drop]
        omega

/-- R146: the only errors `DecFrame` raises. -/
theorem decFrame_error {k : Key} {f : Bytes} {e : ErrorKind} (h : decFrame k f = .error e) :
    e = .malformedBlock ∨ e = .decryptionFailed := by
  obtain ⟨_, h'⟩ | ⟨_, _, h'⟩ | ⟨_, _, h'⟩ := decFrame_cases k f <;> rw [h'] at h
  · cases h; exact .inl rfl
  · cases h; exact .inr rfl
  · unfold unpad at h; split at h <;> cases h; exact .inr rfl

/-- R170 `OutBound` of DEC: a recovered chunk is at most the frame's length less 17. -/
theorem decFrame_ok_length {k : Key} {f chunk : Bytes} (h : decFrame k f = .ok chunk) :
    chunk.length + 17 ≤ f.length := by
  obtain ⟨_, h'⟩ | ⟨_, _, h'⟩ | ⟨h1, h2, h'⟩ := decFrame_cases k f <;> rw [h'] at h
  · cases h
  · cases h
  · unfold unpad at h
    split at h <;> cases h
    rename_i hn
    simp only [List.length_take, cbcDec_length, List.length_drop]
    omega

end Sys2Proof.Machine
end

