-- ==== Sys2Proof/Laws/PerInstr.lean ====
section
/-! SUPPORT. Statements for all instructions, one lemma per constructor of `Instr`. -/

namespace Sys2Proof.Laws.Encoding

/-- R80, R81: the command is well formed, its word is a defined command word, that word decodes to the command, and so
does the opcode table's numbering of it. -/
def Statement (i : Instr) : Prop :=
  i.wellFormed = true ∧ commandWordDefined (encode i) = true ∧ decodeWord (encode i) = .ok i ∧
    decodeTableWord 8 (encode i).toNat = some i

theorem keyld : Statement .keyld := ⟨rfl, rfl, rfl, rfl⟩
theorem enc : Statement .enc := ⟨rfl, rfl, rfl, rfl⟩
theorem dec : Statement .dec := ⟨rfl, rfl, rfl, rfl⟩
theorem clr : Statement .clr := ⟨rfl, rfl, rfl, rfl⟩

end Sys2Proof.Laws.Encoding
end

