-- ==== Sys2Proof/Laws/Step.lean ====
section
/-! SUPPORT. One step, by the entry at the head of the host's script; everything a step can do, said once
(`step_cases`); and runs of several steps. -/

namespace Sys2Proof.Machine

variable {s : State} {rest : List HostItem}

theorem step_idle (h : s.script = []) : step s = .next s := by simp [step, h, idle]

theorem step_push {b : Byte} (h : s.script = .op (.push b) :: rest) : step s = push b s := by
  simp [step, h, perform, issue]

theorem step_pop (h : s.script = .op .pop :: rest) : step s = pop s := by simp [step, h, perform, issue]

theorem step_rdreg {n : BitVec 4} (h : s.script = .op (.rdreg n) :: rest) : step s = rdreg n s := by
  simp [step, h, perform, issue]

theorem step_cmd {w : Byte} (h : s.script = .op (.cmd w) :: rest) : step s = cmd w s := by
  simp [step, h, perform, issue]

theorem step_reset (h : s.script = .op .reset :: rest) : step s = reset s := by simp [step, h, perform, issue]

theorem step_drain (h : s.script = .drain :: rest) : step s = drain s := by simp [step, h, perform]

theorem step_stopOnError (h : s.script = .stopOnError :: rest) : step s = stopOnError s := by
  simp [step, h, perform]

theorem step_rng {bs : Bytes} (h : s.script = .rng bs :: rest) : step s = fixRng bs s := by
  simp [step, h, perform]

/-! ## Everything a step can do -/

/-- Every way a step from `s` can end, with what stood at the head of the script and the condition under which it ends
so. Claims about all steps follow by cases on it. -/
inductive StepCase (s : State) : State → Prop where
  | idle : s.script = [] → StepCase s s
  | held {o : PortOp} : s.script.head? = some (.op o) → StepCase s s
  | push {b : Byte} : s.script.head? = some (.op (.push b)) → s.ibuf.length < Config.params.ibufCap →
      StepCase s ({ s with ibuf := s.ibuf ++ [b] } : State).retire
  | pop {b : Byte} {bs : Bytes} : s.script.head? = some (.op .pop) → s.obuf = b :: bs →
      StepCase s (({ s with obuf := bs } : State).answer (.byte b)).retire
  | rdreg {n : BitVec 4} : s.script.head? = some (.op (.rdreg n)) →
      StepCase s (s.answer (.word (s.register n))).retire
  | reset : s.script.head? = some (.op .reset) → StepCase s s.cleared.retire
  | clr : s.script.head? = some (.op (.cmd 0x04)) → StepCase s s.cleared.retire
  | ignored {w : Byte} : s.script.head? = some (.op (.cmd w)) → s.errcode ≠ 0 → StepCase s s.retire
  | failed {w : Byte} {k : ErrorKind} : s.script.head? = some (.op (.cmd w)) → s.errcode = 0 →
      k ∈ [ErrorKind.malformedBlock, .decryptionFailed, .noKey, .illegalCommand] → StepCase s (s.record k).retire
  | keyld : s.script.head? = some (.op (.cmd 0x01)) → s.errcode = 0 → s.ibuf.length = 32 →
      StepCase s ((s.loadKey (Key.ofBytes s.ibuf)).consume).retire
  | enc : s.script.head? = some (.op (.cmd 0x02)) → EncReady Config.params s → StepCase s (encrypt s).retire
  | dec {chunk : Bytes} : s.script.head? = some (.op (.cmd 0x03)) → DecReady Config.params s →
      decFrame s.key s.ibuf = .ok chunk → StepCase s (deliver chunk s).retire
  | drain : s.script.head? = some .drain →
      StepCase s { s.answer (.word (s.register 2)) with
        script := List.replicate (s.register 2) (.op .pop) ++ s.script.tail }
  | stopOnError : s.script.head? = some .stopOnError →
      StepCase s { s.answer (.word (s.register 0)) with
        script := if statusError (s.register 0) ≠ 0 then [.op (.cmd 0x04)] else s.script.tail }
  | rng {bs : Bytes} : s.script.head? = some (.rng bs) → StepCase s (s.withRng (s.rng.fix bs)).retire

/-- What a command word does is one of the cases. -/
theorem cmd_stepCase {t : State} {w : Byte} (hh : s.script.head? = some (.op (.cmd w))) (h : cmd w s = .next t) :
    StepCase s t := by
  obtain ⟨i, rfl, hc⟩ | ⟨_, hc⟩ := cmd_cases w s <;> rw [hc] at h
  · cases i with
    | keyld =>
      obtain ⟨he, rfl⟩ | ⟨he, _, rfl⟩ | ⟨he, hl, rfl⟩ := execKeyld_cases h
      · exact .ignored hh he
      · exact .failed hh he (by simp)
      · exact .keyld hh he hl
    | enc =>
      obtain ⟨he, rfl⟩ | ⟨he, _, rfl⟩ | ⟨he, hk, hr, rfl⟩ | ⟨_, _, _, rfl⟩ := encIn_cases h
      · exact .ignored hh he
      · exact .failed hh he (by simp)
      · exact .enc hh ⟨he, hk, hr⟩
      · exact .held hh
    | dec =>
      obtain ⟨he, rfl⟩ | ⟨he, _, rfl⟩ | ⟨he, _, k, hk, rfl⟩ | ⟨he, hk, c, hc, hr, rfl⟩ | ⟨_, _, _, _, _, rfl⟩ :=
        decIn_cases h
      · exact .ignored hh he
      · exact .failed hh he (by simp)
      · exact .failed hh he (by obtain rfl | rfl := decFrame_error hk <;> simp)
      · exact .dec hh ⟨he, hk, hr⟩ hc
      · exact .held hh
    | clr =>
      rw [exec, execClr_eq] at h
      cases h
      exact .clr hh
  · obtain ⟨he, rfl⟩ | ⟨he, rfl⟩ := execReserved_cases h
    · exact .ignored hh he
    · exact .failed hh he (by simp)

/-- Everything a step can do: if it answers a next state, then one of these cases holds. -/
theorem step_cases {t : State} (h : step s = .next t) : StepCase s t := by
  match hs : s.script with
  | [] => rw [step_idle hs] at h; cases h; exact .idle hs
  | .op (.push b) :: rest =>
    rw [step_push hs] at h
    obtain ⟨hl, rfl⟩ | ⟨_, rfl⟩ := pushIn_cases h
    · exact .push (by rw [hs]; rfl) hl
    · exact .held (o := .push b) (by rw [hs]; rfl)
  | .op .pop :: rest =>
    rw [step_pop hs] at h
    obtain ⟨_, rfl⟩ | ⟨_, _, ho, rfl⟩ := pop_cases h
    · exact .held (o := .pop) (by rw [hs]; rfl)
    · exact .pop (by rw [hs]; rfl) ho
  | .op (.rdreg n) :: rest => rw [step_rdreg hs, rdreg_eq] at h; cases h; exact .rdreg (by rw [hs]; rfl)
  | .op .reset :: rest => rw [step_reset hs, reset_eq] at h; cases h; exact .reset (by rw [hs]; rfl)
  | .op (.cmd w) :: rest => exact cmd_stepCase (by rw [hs]; rfl) ((step_cmd hs).symm.trans h)
  | .drain :: rest => rw [step_drain hs] at h; cases h; exact .drain (by rw [hs]; rfl)
  | .stopOnError :: rest => rw [step_stopOnError hs] at h; cases h; exact .stopOnError (by rw [hs]; rfl)
  | .rng bs :: rest => rw [step_rng hs] at h; cases h; exact .rng (by rw [hs]; rfl)

/-! ## Runs of several steps -/

@[simp] theorem runSteps_zero (s : State) : runSteps 0 s = .next s := rfl

theorem runSteps_succ {t : State} (k : Nat) (h : step s = .next t) : runSteps (k + 1) s = runSteps k t := by
  rw [runSteps, h]

/-- A run of `m` steps followed by one of `n`. -/
theorem runSteps_add {t : State} (m n : Nat) (h : runSteps m s = .next t) : runSteps (m + n) s = runSteps n t := by
  induction m generalizing s with
  | zero => cases h; rw [Nat.zero_add]
  | succ m ih =>
    rw [Nat.succ_add, runSteps]
    rw [runSteps] at h
    split at h
    · exact ih h
    · cases h
    · cases h

/-- `runSteps` is the host's `Host.Core.run` on this machine. -/
theorem runSteps_eq_core_run (k : Nat) (s : State) : runSteps k s = Host.Core.run Sys2Proof.core k s := by
  induction k generalizing s with
  | zero => rfl
  | succ k ih =>
    cases h : step s with
    | next t =>
      have h' : Sys2Proof.core.step s = .next t := h
      simp only [runSteps, Host.Core.run, h, h']
      exact ih t
    | fault r => cases r
    | refused r =>
      have h' : Sys2Proof.core.step s = .refused r := h
      simp only [runSteps, Host.Core.run, h, h']
      rfl

end Sys2Proof.Machine
end

