-- ==== Sys2Proof/Tests/Slice0.lean ====
section
/-! SUPPORT. The model's own tests: what is ill formed is refused, the command words written out bit by bit decode, the
spec's vectors (`95_test_vectors.md`; the vector's name stands in each docstring), and for every obligation that has
hypotheses a witness that they can be met together, with the boundary values of its clauses. -/

namespace Sys2Proof.Tests

open Sys2Proof.Machine

/-! ## Helpers -/

/-- `n` bytes written as one number, the byte of lowest index most significant, as the spec writes hex strings (R8). -/
def hex : Nat → Nat → Bytes
  | 0, _ => []
  | n + 1, v => hex n (v / 256) ++ [BitVec.ofNat 8 v]

/-- A text of `n` characters, given by the hex of its codes. -/
def asc (n v : Nat) : Text := (hex n v).map BitVec.toNat

/-- `n` bytes counting up from `a`. -/
def upFrom (n a : Nat) : Bytes := (List.range n).map fun i => BitVec.ofNat 8 (a + i)

/-- `K1` of the spec's vectors, as bytes. -/
def k1Bytes : Bytes := hex 32 0x536563723374594d415549635145594d415549635145594d415549635145594d

/-- `K1` as a key. -/
def k1 : Key := Key.ofBytes k1Bytes

/-- The frame of vector E1 with its bytes 0, 15 and 31 as given. -/
def e1With (b0 b15 b31 : Byte) : Bytes :=
  [b0] ++ hex 14 0xa1a2a3a4a5a6a7a8a9aaabacadae ++ [b15] ++ hex 15 0x8b58cce059e08d116109c1cb7b916d ++ [b31]

/-- Vector E1's frame. -/
def e1 : Bytes := e1With 0xa0 0xaf 0xe2

/-- "hello". -/
def hello : Bytes := hex 5 0x68656c6c6f

/-- Vector E1's text block. -/
def e1Text : Text :=
  asc 44 0x6f4b47696f36536c7071656f71617172724b3275723474597a4f425a3449305259516e42793375526265493d

/-- The smallest legal pair of capacities. -/
def small : Params := ⟨32, 64⟩

/-- The random source RNG-A of the spec's vectors, `n` answers of it, the first `0xA0 + i`. -/
def rngA (n i : Nat) : Rng := ⟨upFrom n (0xA0 + i), i⟩

/-- A state with the key `k` loaded, the given buffers, and nothing else. -/
def keyed (k : Key) (ibuf obuf : Bytes) : State :=
  { State.reset with key := k, keyv := true, ibuf := ibuf, obuf := obuf }

/-- What a test looks at after an operation: `STATUS`, the two buffers, and how many bytes have been drawn. -/
def view (o : Outcome) : Option (Nat × Bytes × Bytes × Nat) :=
  match o with
  | .next s => some (s.status.toNat, s.ibuf, s.obuf, s.rng.drawn)
  | .fault _ => none
  | .refused _ => none

/-! ## Well-formedness -/

/-- R81, R83: every reserved word at the edges of the map is refused, and so is a pair of capacities that R62 does not
allow, and a script line that R85 does not have. -/
theorem test_ill_formed_refused :
    [0x00, 0x05, 0xFF].map commandWordDefined = [false, false, false] ∧
    [0x01, 0x04].map commandWordDefined = [true, true] ∧
    Params.wellFormed ⟨31, 100⟩ = false ∧ Params.wellFormed ⟨32, 63⟩ = false ∧ Params.wellFormed small = true ∧
    Line.wellFormed (.push []) = false ∧ Line.wellFormed (.pushs [200]) = false := by decide

/-- R82, R84: no command has a field that could be ill formed. -/
theorem test_commands_well_formed :
    [Instr.keyld, .enc, .dec, .clr].map Instr.wellFormed = [true, true, true, true] := by decide

/-! ## Decoding (R80, R81), the words written out bit by bit -/

theorem test_decode_keyld : decode [0b00000001, 0xAA] = .ok (.keyld, [0xAA]) := rfl
theorem test_decode_enc : decode [0b00000010] = .ok (.enc, []) := rfl
theorem test_decode_dec : decode [0b00000011] = .ok (.dec, []) := rfl
theorem test_decode_clr : decode [0b00000100, 0x01] = .ok (.clr, [0x01]) := rfl

/-- R83: one bit off a command is no command. -/
theorem test_decode_reserved :
    decode [0b00000000] = .error (.reservedWord 0) ∧ decode [0b00000101] = .error (.reservedWord 5) ∧
    decode [0b10000001] = .error (.reservedWord 0x81) ∧ decode [] = .error .noWord := ⟨rfl, rfl, rfl, rfl⟩

/-- The table's numbering: a second byte makes it no single command. -/
theorem test_decode_table_word :
    decodeTableWord 8 4 = some .clr ∧ decodeTableWord 8 0x101 = some .keyld ∧ decodeTableWord 16 1 = none :=
  ⟨rfl, rfl, rfl⟩

/-! ## The first step after reset (R171 to R174 at R34's state) -/

theorem test_first_step_keyld : step (State.reset.withFetchWord 8 1) = .next { State.reset with errcode := 6 } := rfl
theorem test_first_step_enc : step (State.reset.withFetchWord 8 2) = .next { State.reset with errcode := 5 } := rfl
theorem test_first_step_dec : step (State.reset.withFetchWord 8 3) = .next { State.reset with errcode := 5 } := rfl
theorem test_first_step_clr : step (State.reset.withFetchWord 8 4) = .next State.reset := rfl

/-! ## Commands (vectors Q) -/

/-- Q1, Q2, Q3: 32 bytes are a key; 31 are not; and a failing KEYLD keeps the key there was. -/
theorem test_keyld :
    execKeyld { State.reset with ibuf := k1Bytes } = .next (keyed k1 [] []) ∧
    execKeyld { State.reset with ibuf := k1Bytes.take 31 } =
      .next { State.reset with ibuf := k1Bytes.take 31, errcode := 6 } ∧
    execKeyld (keyed k1 [] []) = .next { keyed k1 [] [] with errcode := 6 } := ⟨rfl, rfl, rfl⟩

/-- Q8: the frame, 26 bytes drawn. -/
theorem test_enc_hello :
    view (encIn small { keyed k1 hello [] with rng := rngA 26 0 }) = some (1, [], e1, 26) := by decide +kernel

/-- Q25: a second ENC waits at 48 bytes of output, nothing drawn, and is done at 32. -/
theorem test_enc_waits_for_room :
    view (encIn small { keyed k1 [0x61] (upFrom 48 0) with rng := rngA 30 31 }) =
      some (1, [0x61], upFrom 48 0, 31) ∧
    view (encIn small { keyed k1 [0x61] (upFrom 32 0) with rng := rngA 30 31 }) =
      some (1, [], upFrom 32 0 ++
        hex 32 0xbfc0c1c2c3c4c5c6c7c8c9cacbcccdce7822046124825988609437dadd057c57, 61) := by decide +kernel

/-- Q26: DEC waits at 50 bytes of output, although the chunk has 5, and is done at 49. -/
theorem test_dec_waits_for_room :
    view (decIn small (keyed k1 e1 (upFrom 50 0))) = some (1, e1, upFrom 50 0, 0) ∧
    view (decIn small (keyed k1 e1 (upFrom 49 0))) = some (1, [], upFrom 49 0 ++ hello, 0) := by decide +kernel

/-- Q12, Q14, Q27: too short, no ciphertext, and a bad pad count on a full `OBUF`: the command fails and does not
wait. -/
theorem test_dec_fails :
    view (decIn small (keyed k1 (e1.take 15) [])) = some (0x31, e1.take 15, [], 0) ∧
    view (decIn small (keyed k1 (e1.take 16) [])) = some (0x41, e1.take 16, [], 0) ∧
    view (decIn small (keyed k1 (e1With 0xa0 0xaf 0xe3) (upFrom 64 0))) =
      some (0x41, e1With 0xa0 0xaf 0xe3, upFrom 64 0, 0) := by decide +kernel

/-- R174's example: `STATUS = 0x41` and `OCNT = 5` before, all zero after. -/
theorem test_clr :
    ({ keyed k1 [] hello with errcode := 4 } : State).status = 0x41 ∧
    execClr { keyed k1 [] hello with errcode := 4 } = .next State.reset := ⟨rfl, rfl⟩

/-- Q4, Q5, Q7: a reserved word, and the sticky error after it. -/
theorem test_reserved_and_sticky :
    view (cmd 0x00 State.reset) = some (0x60, [], [], 0) ∧ view (cmd 0xFF State.reset) = some (0x60, [], [], 0) ∧
    view (cmd 0x07 { State.reset with errcode := 5 }) = some (0x50, [], [], 0) ∧
    view (cmd 0x02 { State.reset with errcode := 5 }) = some (0x50, [], [], 0) := ⟨rfl, rfl, rfl, rfl⟩

/-! ## Port operations (R51, R52, R53, R270) -/

/-- R51's example, and Q23: the 33rd byte waits. -/
theorem test_push :
    view (pushIn small 0xFF { State.reset with ibuf := [0x01] }) = some (0, [0x01, 0xFF], [], 0) ∧
    view (pushIn small 0x00 { State.reset with ibuf := k1Bytes }) = some (0, k1Bytes, [], 0) := by decide +kernel

/-- R52's example, and Q24: a POP of nothing waits. -/
theorem test_pop :
    pop { State.reset with obuf := [0xA0, 0xA1] } =
      .next { State.reset with obuf := [0xA1], received := [.byte 0xA0] } ∧
    pop State.reset = .next State.reset := ⟨rfl, rfl⟩

/-- R26's example, R53's numbers. -/
theorem test_registers :
    [0, 1, 2, 3, 15].map ({ keyed k1 hello e1 with errcode := 4 } : State).register = [0x41, 5, 32, 0, 0] := by
  decide +kernel

/-- R270: RESET leaves the reset state in every state, the error state included. -/
theorem test_reset : reset { keyed k1 hello e1 with errcode := 4 } = .next State.reset := rfl

/-! ## AES-256 (`40_aes256.md`; vectors A) -/

/-- A1 and A4. -/
theorem test_aes_fips :
    (aesEnc (Key.ofBytes (upFrom 32 0)) (Block.ofBytes (hex 16 0x00112233445566778899aabbccddeeff))).toBytes =
      hex 16 0x8ea2b7ca516745bfeafc49904b496089 ∧
    (aesDec (Key.ofBytes (upFrom 32 0)) (Block.ofBytes (hex 16 0x8ea2b7ca516745bfeafc49904b496089))).toBytes =
      hex 16 0x00112233445566778899aabbccddeeff := by decide +kernel

/-- A8: words 0, 7, 8, 12 and 59 of the key schedule. -/
theorem test_key_expansion :
    [0, 7, 8, 12, 59].map (fun i => ((keyExpansion k1)[i]?.map Col.toBytes)) =
      [0x53656372, 0x5145594d, 0x3cae80a3, 0x812194d9, 0xc52cc444].map (fun n => some (hex 4 n)) := by
  decide +kernel

/-- R101 and R110: 0x57 times 0x13, and a column mixed. -/
theorem test_gmul_and_mix :
    gmul 0x57 0x13 = 0xFE ∧ mixColumn ⟨0xdb, 0x13, 0x53, 0x45⟩ = ⟨0x8e, 0x4d, 0xa1, 0xbc⟩ := by decide

/-! ## Padding, CBC, framing (`41_cbc_padding_framing.md`; vectors B, E, T, W) -/

/-- B1. -/
theorem test_lengths :
    [0, 1, 5, 11, 15, 16, 17, 31, 32, 120, 976].map padLen = [16, 15, 11, 5, 1, 16, 15, 1, 16, 8, 16] ∧
    [0, 1, 5, 11, 15, 16, 17, 31, 32, 120, 976].map frameLen =
      [32, 32, 32, 32, 32, 48, 48, 48, 64, 144, 1008] := by decide

/-- B2 and B3: the pad and its removal, the values 0, 17 and 255 refused, other padding bytes not looked at. -/
theorem test_padding :
    pad hello (upFrom 10 0xb0) = hex 16 0x68656c6c6fb0b1b2b3b4b5b6b7b8b90b ∧
    unpad (hex 16 0x68656c6c6f0b0b0b0b0b0b0b0b0b0b0b) = .ok hello ∧ unpad (upFrom 15 0 ++ [0x10]) = .ok [] ∧
    [0x00, 0x11, 0xff].map (fun b => unpad (upFrom 15 0 ++ [b])) =
      List.replicate 3 (.error .decryptionFailed) := by decide +kernel

/-- B5: the first two cipher blocks of the published CBC vector. -/
theorem test_cbc :
    cbcEnc (Key.ofBytes (hex 32 0x603deb1015ca71be2b73aef0857d77811f352c073b6108d72d9810a30914dff4)) (upFrom 16 0)
        (hex 32 0x6bc1bee22e409f96e93d7e117393172aae2d8a571e03ac9c9eb76fac45af8e51) =
      hex 32 0xf58c4c04d6e5f1ba779eabfb5f7bfbd69cfc4e967edb808d679f777bc6702c7d := by decide +kernel

/-- E3: a chunk of exactly one cipher block, with a whole block of padding. -/
theorem test_enc_chunk_full_block :
    encChunk k1 (upFrom 16 0) (upFrom 16 0xa0) (upFrom 15 0xb0) =
      hex 48 0xa0a1a2a3a4a5a6a7a8a9aaabacadaeaf71e57ed1ae634b92c2f07ad415ba3e0e06661beefbe47b3dadbf52790eabbf72 := by
  decide +kernel

/-- T1, T4: silent corruption by a changed IV byte, and a pad count of 0. -/
theorem test_dec_frame_altered :
    decFrame k1 (e1With 0xa1 0xaf 0xe2) = .ok (hex 5 0x69656c6c6f) ∧
    decFrame k1 (e1With 0xa0 0xa4 0xe2) = .error .decryptionFailed := by decide +kernel

/-- W3: a wrong key that passes the pad check. -/
theorem test_dec_frame_wrong_key :
    decFrame (Key.ofBytes (hex 32 0x57726f6e6732384d415549635145594d415549635145594d415549635145594d)) e1 =
      .ok (hex 7 0xe85ab3bb39d44e) := by decide +kernel

/-! ## The host codec layer (`43_host_codec.md`; vectors H) -/

/-- H1 and H2: "Secr3t", a password of 35 characters, two that are too short, one outside the domain (R205). -/
theorem test_derive :
    derive (asc 6 0x536563723374) = .ok k1 ∧
    derive (asc 35 0x3031323334353637383961626364656630313233343536373839616263646566585958) =
      .ok (Key.ofBytes (hex 32 0x3031323334353637383961626364656630313233343536373839616263646566)) ∧
    derive (asc 5 0x3132333435) = .error (.failed .invalidPassword) ∧
    derive [] = .error (.failed .invalidPassword) ∧
    derive [128] = .error (.refused .passwordOutsideAscii) := by decide +kernel

/-- H3: groups of one, two and three bytes. -/
theorem test_b64_enc :
    b64Enc (hex 1 0x66) = asc 4 0x5a673d3d ∧ b64Enc (hex 2 0x666f) = asc 4 0x5a6d383d ∧
    b64Enc (hex 6 0x666f6f626172) = asc 8 0x5a6d3976596d4679 ∧ b64Enc e1 = e1Text := by decide +kernel

/-- H4: the strict refusals: `Zm8`, `Zh==`, `Zm9v=`, `====`, `Zm9-`, `Zm 9v`, a line break after `Zm9v`. -/
theorem test_b64_dec :
    b64Dec (asc 4 0x5a6d383d) = .ok (hex 2 0x666f) ∧ b64Dec [] = .ok [] ∧
    [asc 3 0x5a6d38, asc 4 0x5a683d3d, asc 5 0x5a6d39763d, asc 4 0x3d3d3d3d, asc 4 0x5a6d392d, asc 5 0x5a6d203976,
      asc 5 0x5a6d39760a].map b64Dec = List.replicate 7 (.error .malformedBlock) := by decide +kernel

/-- H5, H6: the chunk lengths, and the least capacity that passes. -/
theorem test_split_and_capacity :
    (split (upFrom 43 0) 16).map List.length = [16, 16, 11] ∧ (split (upFrom 32 0) 16).map List.length = [16, 16] ∧
    split [] 16 = [] ∧ encryptCall [] k1 48 [] = .error (.failed .chunkCapacityTooSmall) ∧
    encryptCall [] k1 (-1) [] = .error (.failed .chunkCapacityTooSmall) ∧ encryptCall [] k1 49 [] = .ok [] := by
  decide +kernel

/-- H9: a good block and then one that does not decode: the failure alone. -/
theorem test_decrypt_call :
    decryptCall [e1Text] k1 = .ok hello ∧
    decryptCall [e1Text, asc 3 0x5a6d38] k1 = .error (.failed .malformedBlock) ∧
    decryptCall [asc 4 0x5a6d3976] k1 = .error (.failed .malformedBlock) := by decide +kernel

/-! ## The host script (R85) -/

/-- P1, some of its lines: a comment, bytes, a command, a register by name, a count, a raw word; and two lines that are
none of R85's. -/
theorem test_parse_script :
    parseScript (codes ['P', 'U', 'S', 'H', ' ', '6', '8', ' ', '6', 'f', ' ', '#', 'h', '\n', 'E', 'N', 'C', '\n',
      'R', 'D', 'R', 'E', 'G', ' ', 'O', 'C', 'N', 'T', '\n', 'P', 'O', 'P', ' ', '3', '2', '\n',
      'C', 'M', 'D', ' ', '0', '7']) =
      some [.push [0x68, 0x6f], .command .enc, .rdreg 2, .pop 32, .raw 7] ∧
    parseScript (codes ['P', 'U', 'S', 'H', 'S', ' ', '"', 'h', ' ', 'i', '"']) = some [.pushs [104, 32, 105]] ∧
    parseScript (codes ['P', 'U', 'S', 'H', ' ', '6']) = none ∧ parseScript (codes ['E', 'N', 'D']) = none := by
  decide +kernel

/-- The command words an entry of a script presents on the CMD port. -/
def cmdWords (items : List HostItem) : Bytes :=
  items.filterMap fun i => match i with
    | .op (.cmd w) => some w
    | .op (.push _) => none
    | .op .pop => none
    | .op (.rdreg _) => none
    | .op .reset => none
    | .drain => none
    | .stopOnError => none
    | .rng _ => none

/-- P2: the CMD port bytes of the `Encrypt` of 43 bytes with capacity 64, and of the `Decrypt` of three blocks. -/
theorem test_driver_command_words :
    (startEncrypt small (upFrom 43 0) k1 64).toOption.map cmdWords = some [4, 1, 2, 2, 2, 4] ∧
    (startDecrypt small [e1Text, e1Text, e1Text] k1).toOption.map cmdWords = some [4, 1, 3, 3, 3, 4] := by
  decide +kernel

/-! ## Witnesses: the hypotheses of each obligation met together, clause by clause at its boundary values -/

/-- A state whose host has one entry left. -/
def about (item : HostItem) (s : State) : State := s.begin [item]

/-- `n` bytes of 0. -/
def zeros (n : Nat) : Bytes := List.replicate n 0

theorem witness_decodeAndEncodeAgree : Instr.wellFormed .keyld = true ∧ Instr.wellFormed .clr = true := ⟨rfl, rfl⟩

theorem witness_reservedWords :
    commandWordDefined 0x00 = false ∧ commandWordDefined 0x05 = false ∧ commandWordDefined 0xFF = false := by decide

/-- The last byte that fits, and the first that does not. -/
theorem witness_push :
    (∃ s : State, s.script = [.op (.push 7)] ∧ s.ibuf.length + 1 = Config.params.ibufCap) ∧
    ∃ s : State, s.script = [.op (.push 7)] ∧ s.ibuf.length = Config.params.ibufCap :=
  ⟨⟨about (.op (.push 7)) { State.reset with ibuf := zeros (Config.ibufExtra + 31) }, rfl,
      by simp [about, State.begin, zeros, Config.params]⟩,
    about (.op (.push 7)) { State.reset with ibuf := zeros Config.params.ibufCap }, rfl,
      by simp [about, State.begin, zeros]⟩

theorem witness_pop :
    (∃ s : State, s.script = [.op .pop] ∧ s.obuf = [9]) ∧ ∃ s : State, s.script = [.op .pop] ∧ s.obuf = [] :=
  ⟨⟨about (.op .pop) { State.reset with obuf := [9] }, rfl, rfl⟩, about (.op .pop) State.reset, rfl, rfl⟩

theorem witness_rdreg :
    (∃ s : State, s.script = [.op (.rdreg 0)]) ∧ (∃ s : State, s.script = [.op (.rdreg 3)]) ∧
    3 ≤ (3 : BitVec 4).toNat ∧ 3 ≤ (15 : BitVec 4).toNat :=
  ⟨⟨about (.op (.rdreg 0)) State.reset, rfl⟩, ⟨about (.op (.rdreg 3)) State.reset, rfl⟩, by decide, by decide⟩

theorem witness_reset : ∃ s : State, s.script = [.op .reset] ∧ s.errcode = 4 ∧ s.key = k1 :=
  ⟨about (.op .reset) { keyed k1 hello e1 with errcode := 4 }, rfl, rfl, rfl⟩

theorem witness_drain :
    (∃ s : State, s.script = [.drain] ∧ s.obuf = hello) ∧ ∃ s : State, s.script = [.drain] ∧ s.obuf = [] :=
  ⟨⟨about .drain { State.reset with obuf := hello }, rfl, rfl⟩, about .drain State.reset, rfl, rfl⟩

theorem witness_stepRunsTheDecodedCommand :
    ∃ s : State, s.script = [.op (.cmd 0x03)] ∧ decodeWord 0x03 = .ok .dec :=
  ⟨about (.op (.cmd 0x03)) State.reset, rfl, rfl⟩

theorem witness_keyldLoads : ∃ s : State, s.errcode = 0 ∧ s.ibuf.length = 32 :=
  ⟨{ State.reset with ibuf := k1Bytes }, rfl, rfl⟩

/-- ENC with exactly the room its frame needs, and with an empty chunk. -/
theorem witness_encReady :
    ∃ s : State, EncReady Config.params s ∧ s.obuf.length + frameLen s.ibuf.length = Config.params.obufCap :=
  ⟨keyed k1 [] (zeros (Config.obufExtra + Config.ibufExtra + 32)),
    ⟨rfl, rfl, by simp [keyed, zeros, Config.params, frameLen, padLen]; omega⟩,
    by simp [keyed, zeros, Config.params, frameLen, padLen]; omega⟩

/-- ENC on the empty chunk, where there is nothing in `OBUF`. -/
theorem enc_of_nothing (s : State) (h : s.errcode = 0 ∧ s.keyv = true ∧ s.ibuf = [] ∧ s.obuf = []) :
    EncReady Config.params s ∧ exec .enc s = .next (encrypt s).retire := by
  have hr : s.obuf.length + frameLen s.ibuf.length ≤ Config.params.obufCap := by
    rw [h.2.2.1, h.2.2.2]
    show 0 + 32 ≤ Config.obufExtra + (Config.ibufExtra + 64)
    omega
  refine ⟨⟨h.1, h.2.1, hr⟩, ?_⟩
  simp [exec, execEnc, encIn, unlessError_of_clear h.1, h.2.1, State.hasRoom, hr]

/-- DEC comes to its frame with exactly the room the longest chunk needs. -/
theorem decReady_of_length {f : Bytes} (h : f.length = 32) : DecReady Config.params (keyed k1 f []) :=
  ⟨rfl, rfl, by simp [keyed, h, Config.params]; omega⟩

/-- T2 and T5: the least and the greatest pad count. -/
theorem witness_decAppends :
    (∃ s p, DecReady Config.params s ∧ 32 ≤ s.ibuf.length ∧ s.ibuf.length % 16 = 0 ∧
      p = cbcDec s.key (s.ibuf.take 16) (s.ibuf.drop 16) ∧ 1 = (p.getD (p.length - 1) 0).toNat) ∧
    ∃ s p, DecReady Config.params s ∧ 32 ≤ s.ibuf.length ∧ s.ibuf.length % 16 = 0 ∧
      p = cbcDec s.key (s.ibuf.take 16) (s.ibuf.drop 16) ∧ 16 = (p.getD (p.length - 1) 0).toNat := by
  refine ⟨⟨keyed k1 (e1With 0xa0 0xa5 0xe2) [], hex 16 0x68656c6c6fb0b1b2b3b4b5b6b7b8b901,
    decReady_of_length rfl, ?_, ?_, ?_, ?_⟩,
    ⟨keyed k1 (e1With 0xa0 0xb4 0xe2) [], hex 16 0x68656c6c6fb0b1b2b3b4b5b6b7b8b910,
    decReady_of_length rfl, ?_, ?_, ?_, ?_⟩⟩ <;> decide +kernel

/-- The failing operands at the edges of R241's ranges: KEYLD's 0, 31 and 33 bytes; no key; DEC's 0, 15, 16, 17 and 33
bytes. -/
theorem witness_commandsRaise :
    (∃ failWith : BitVec 4 → State,
      ∀ c, failWith c = { State.reset with errcode := c, script := State.reset.script.tail }) ∧
    State.reset.errcode = 0 ∧ State.reset.keyv = false ∧
    [0, 31, 33].map (fun n => decide ((keyed k1 (zeros n) []).ibuf.length ≠ 32)) = [true, true, true] ∧
    [0, 15].map (fun n => decide ((keyed k1 (zeros n) []).ibuf.length < 16)) = [true, true] ∧
    (keyed k1 (zeros 16) []).ibuf.length = 16 ∧
    (16 < (keyed k1 (zeros 17) []).ibuf.length ∧ (keyed k1 (zeros 17) []).ibuf.length % 16 ≠ 0) ∧
    (16 < (keyed k1 (zeros 33) []).ibuf.length ∧ (keyed k1 (zeros 33) []).ibuf.length % 16 ≠ 0) :=
  ⟨⟨fun c => { State.reset with errcode := c, script := State.reset.script.tail }, fun _ => rfl⟩, rfl, rfl,
    by decide, by decide, by decide, by decide, by decide⟩

/-- T3 and T4: the pad counts 17 and 0, just outside the range. -/
theorem witness_commandsRaise_padCount :
    padCount (cbcDec k1 ((e1With 0xa0 0xb5 0xe2).take 16) ((e1With 0xa0 0xb5 0xe2).drop 16)) = 17 ∧
    padCount (cbcDec k1 ((e1With 0xa0 0xa4 0xe2).take 16) ((e1With 0xa0 0xa4 0xe2).drop 16)) = 0 := by
  decide +kernel

theorem witness_reservedWordRecords :
    (∃ s : State, s.script = [.op (.cmd 0x05)] ∧ commandWordDefined 0x05 = false ∧ s.errcode = 0) ∧
    ∃ s : State, s.script = [.op (.cmd 0x00)] ∧ commandWordDefined 0x00 = false ∧ s.errcode ≠ 0 :=
  ⟨⟨about (.op (.cmd 0x05)) State.reset, rfl, by decide, rfl⟩,
    about (.op (.cmd 0x00)) { State.reset with errcode := 3 }, rfl, by decide, by decide⟩

theorem witness_stickyError : ∃ s : State, s.script = [.op (.cmd 0x03)] ∧ s.errcode ≠ 0 ∧ (0x03 : Byte) ≠ 0x04 :=
  ⟨about (.op (.cmd 0x03)) { State.reset with errcode := 3 }, rfl, by decide, by decide⟩

/-- Codes 3, 5 and 6 recorded, by DEC of nothing, by ENC without a key and by a reserved word. -/
theorem witness_failingCommand :
    cmd 0x03 (keyed k1 [] []) = .next { keyed k1 [] [] with errcode := 3 } ∧
    cmd 0x02 State.reset = .next { State.reset with errcode := 5 } ∧
    cmd 0x00 State.reset = .next { State.reset with errcode := 6 } := ⟨rfl, rfl, rfl⟩

/-- One byte too little room, for ENC and for DEC of a frame that decrypts. -/
theorem witness_withoutRoom :
    (∃ s : State, s.errcode = 0 ∧ s.keyv = true ∧
      Config.params.obufCap + 1 = s.obuf.length + frameLen s.ibuf.length) ∧
    ∃ s : State, s.errcode = 0 ∧ s.keyv = true ∧ Config.params.obufCap + 1 = s.obuf.length + (s.ibuf.length - 17) ∧
      decFrame s.key s.ibuf = .ok hello := by
  refine ⟨⟨keyed k1 [] (zeros (Config.obufExtra + Config.ibufExtra + 33)), rfl, rfl, ?_⟩,
    ⟨keyed k1 e1 (zeros (Config.obufExtra + Config.ibufExtra + 50)), rfl, rfl, ?_, ?_⟩⟩
  · simp [keyed, zeros, Config.params, frameLen, padLen]; omega
  · have h : e1.length = 32 := rfl
    simp [keyed, zeros, Config.params, h]; omega
  · show decFrame k1 e1 = .ok hello
    decide +kernel

/-- A reachable state with a key and no output. -/
theorem inv_keyed : (keyed k1 [] []).Inv :=
  ⟨Nat.zero_le _, Nat.zero_le _, fun h => (Bool.noConfusion h), .inl rfl⟩

theorem witness_anEmptyObuf :
    (keyed k1 [] []).Inv ∧ (keyed k1 [] []).obuf = [] ∧ (keyed k1 [] []).errcode = 0 ∧
    (keyed k1 [] []).keyv = true := ⟨inv_keyed, rfl, rfl, rfl⟩

/-- The same with an output of five bytes, and the five POPs and the ENC to come. -/
theorem witness_popping :
    ∃ s : State, s.Inv ∧ s.errcode = 0 ∧ s.keyv = true ∧ s.obuf = hello ∧
      s.script = List.replicate s.obuf.length (.op .pop) ++ [.op (.cmd 0x02)] :=
  ⟨(keyed k1 [] hello).begin (List.replicate 5 (.op .pop) ++ [.op (.cmd 0x02)]),
    ⟨Nat.zero_le _, by show 5 ≤ Config.obufExtra + (Config.ibufExtra + 64); omega,
      fun h => (Bool.noConfusion h), .inl rfl⟩, rfl, rfl, rfl, rfl⟩

theorem witness_everyStepKeepsTheInvariant : ∃ s t : State, s.Inv ∧ step s = .next t ∧ s ≠ t :=
  ⟨about (.op .reset) (keyed k1 [] []), State.reset,
    ⟨Nat.zero_le _, Nat.zero_le _, fun h => (Bool.noConfusion h), .inl rfl⟩, rfl, by decide +kernel⟩

/-- A step that changes `KEY`, `KEYV` and `IBUF`; one that changes `ERRCODE`; one that changes `OBUF`; one that
draws. -/
theorem witness_eachElementIsWritten :
    (∃ s t : State, step s = .next t ∧ t.key ≠ s.key ∧ t.keyv ≠ s.keyv ∧ t.ibuf ≠ s.ibuf) ∧
    (∃ s t : State, step s = .next t ∧ t.errcode ≠ s.errcode) ∧
    (∃ s t : State, step s = .next t ∧ t.obuf ≠ s.obuf) ∧
    ∃ s t : State, step s = .next t ∧ t.rng.drawn ≠ s.rng.drawn := by
  refine ⟨⟨about (.op (.cmd 0x01)) { State.reset with ibuf := k1Bytes }, keyed k1 [] [], rfl, ?_, ?_, ?_⟩,
    ⟨about (.op (.cmd 0x00)) State.reset, { State.reset with errcode := 6 }, rfl, ?_⟩,
    ⟨about (.op .pop) { State.reset with obuf := [9] }, { State.reset with received := [.byte 9] }, rfl, ?_⟩,
    ⟨about (.op (.cmd 0x02)) (keyed k1 [] []), (encrypt (about (.op (.cmd 0x02)) (keyed k1 [] []))).retire, ?_, ?_⟩⟩
  · decide +kernel
  · decide +kernel
  · decide +kernel
  · decide +kernel
  · decide +kernel
  · rw [step_cmd rfl]
    exact (enc_of_nothing _ ⟨rfl, rfl, rfl, rfl⟩).2
  · simp [encrypt, about, keyed, State.begin]

theorem witness_outputOnlyAccumulates :
    ∃ s t : State, step s = .next t ∧ ¬ headIs s [.pop, .cmd 0x04, .reset] ∧ s.obuf = hello :=
  ⟨about (.op (.push 1)) (keyed k1 [] hello), keyed k1 [1] hello,
    by rw [step_push rfl, push, pushIn, if_pos (by show 0 < Config.ibufExtra + 32; omega)]; rfl,
    by simp [headIs, about, State.begin], rfl⟩

theorem witness_sameButKey :
    (∃ s t : State, SameButKey s t ∧ s.key ≠ t.key ∧ s.script = [.op (.cmd 0x01)] ∧
      ¬ headIs s [.cmd 0x02, .cmd 0x03]) ∧
    ∃ s t : State, SameButKey s t ∧ s.key ≠ t.key ∧ s.script = [.op (.cmd 0x02)] ∧ s.keyv = false :=
  ⟨⟨about (.op (.cmd 0x01)) (keyed k1 k1Bytes []), about (.op (.cmd 0x01)) (keyed Key.zero k1Bytes []), rfl,
      by decide +kernel, rfl, by simp [headIs, about, State.begin]⟩,
    about (.op (.cmd 0x02)) { State.reset with key := k1 }, about (.op (.cmd 0x02)) State.reset, rfl,
    by decide +kernel, rfl, rfl⟩

theorem witness_sbox : gmul 0x53 0xCA = 1 ∧ (0x53 : Byte) ≠ 0 := by decide

/-- A chunk of no byte and one of 15: the longest fill and none at all. -/
theorem witness_fill :
    (upFrom 15 0xb0).length = padLen ([] : Bytes).length - 1 ∧
    ([] : Bytes).length = padLen (upFrom 15 0).length - 1 ∧ (upFrom 16 0xa0).length = 16 ∧
    (upFrom 32 0).length % 16 = 0 := by decide

/-- Equal draws give equal frames, so the premises of the injectivity statement can be met. -/
theorem witness_differentDrawsGiveDifferentFrames :
    ∃ iv fill iv' fill' : Bytes, iv.length = 16 ∧ iv'.length = 16 ∧ fill.length = padLen hello.length - 1 ∧
      fill'.length = padLen hello.length - 1 ∧ encChunk k1 hello iv fill = encChunk k1 hello iv' fill' :=
  ⟨upFrom 16 0xa0, upFrom 10 0xb0, upFrom 16 0xa0, upFrom 10 0xb0, rfl, rfl, rfl, rfl, rfl⟩

/-- T2 and T5 again, as frames `DecFrame` accepts. -/
theorem witness_decFrameAccepts :
    decFrame k1 (e1With 0xa0 0xb4 0xe2) = .ok [] ∧
    decFrame k1 (e1With 0xa0 0xa5 0xe2) = .ok (hex 15 0x68656c6c6fb0b1b2b3b4b5b6b7b8b9) := by decide +kernel

/-- An ENC of the empty chunk and a DEC of its frame. -/
theorem witness_decOfAnEncFrame :
    ∃ s t u : State, EncReady Config.params s ∧ exec .enc s = .next t ∧ DecReady Config.params u ∧ u.key = s.key ∧
      u.ibuf = t.obuf.drop s.obuf.length := by
  obtain ⟨h1, h2⟩ := enc_of_nothing (keyed k1 [] []) ⟨rfl, rfl, rfl, rfl⟩
  refine ⟨keyed k1 [] [], (encrypt (keyed k1 [] [])).retire, keyed k1 (encrypt (keyed k1 [] [])).obuf [],
    h1, h2, ⟨rfl, rfl, ?_⟩, rfl, rfl⟩
  · have h : (encrypt (keyed k1 [] [])).obuf.length = 32 := by
      simp [encrypt, keyed, encChunk, frame, pad, padLen]
    show 0 + ((encrypt (keyed k1 [] [])).obuf.length - 17) ≤ Config.obufExtra + (Config.ibufExtra + 64)
    omega

/-- Passwords of 6 and of 31 characters, of 5 and with a character 128. -/
theorem witness_derive :
    asciiOnly (asc 6 0x536563723374) = true ∧ 6 ≤ (asc 6 0x536563723374).length ∧
    (asciiOnly (List.replicate 32 127) = true ∧ 6 ≤ (List.replicate 32 127).length) ∧
    (asciiOnly (asc 5 0x3132333435) = true ∧ (asc 5 0x3132333435).length < 6) ∧
    asciiOnly [65, 65, 65, 65, 65, 128] = false := by decide

/-- A text that no byte sequence encodes to. -/
theorem witness_b64 : ∀ f, [90] ≠ b64Enc f := by
  intro f
  match f with
  | [] => simp [b64Enc]
  | [_] => simp [b64Enc]
  | [_, _] => simp [b64Enc]
  | _ :: _ :: _ :: _ => simp [b64Enc]

theorem witness_split : 1 ≤ chunkSize 49 ∧ chunkSize 49 = 1 ∧ chunkSize 1024 = 976 := by decide

theorem witness_capacity : (48 : Int) ≤ 48 ∧ (-5 : Int) ≤ 48 ∧ (49 : Int) ≤ 49 := by decide

/-- Two chunks and their draws; a payload of two bytes at the least capacity, twice with different draws. -/
theorem witness_drawsFit :
    drawsFit [hello, []] [⟨upFrom 16 0, upFrom 10 0⟩, ⟨upFrom 16 9, upFrom 15 0⟩] ∧
    drawsFit (split [1, 2] (chunkSize 49)) [⟨upFrom 16 0, upFrom 14 0⟩, ⟨upFrom 16 9, upFrom 14 0⟩] ∧
    drawsFit (split [1, 2] (chunkSize 49)) [⟨upFrom 16 1, upFrom 14 0⟩, ⟨upFrom 16 9, upFrom 14 0⟩] := by
  refine ⟨.cons ⟨rfl, rfl⟩ (.cons ⟨rfl, rfl⟩ .nil), ?_, ?_⟩
  · exact .cons (a := [1]) ⟨rfl, rfl⟩ (.cons (a := [2]) ⟨rfl, rfl⟩ .nil)
  · exact .cons (a := [1]) ⟨rfl, rfl⟩ (.cons (a := [2]) ⟨rfl, rfl⟩ .nil)

theorem witness_differentDrawsGiveDifferentBlocks :
    ∃ blocks blocks', encryptCall [1, 2] k1 49 [⟨upFrom 16 0, upFrom 14 0⟩, ⟨upFrom 16 9, upFrom 14 0⟩] = .ok blocks ∧
      encryptCall [1, 2] k1 49 [⟨upFrom 16 1, upFrom 14 0⟩, ⟨upFrom 16 9, upFrom 14 0⟩] = .ok blocks' ∧
      (⟨upFrom 16 0, upFrom 14 0⟩ : Draw) ≠ ⟨upFrom 16 1, upFrom 14 0⟩ :=
  ⟨_, _, rfl, rfl, by decide⟩

theorem witness_decryptReportsTheFirstFailure :
    decryptCall [e1Text] k1 = .ok hello ∧ decryptBlock k1 (asc 3 0x5a6d38) = .error .malformedBlock := by
  decide +kernel

theorem witness_decryptOfEncrypt :
    asciiOnly (asc 6 0x536563723374) = true ∧ 6 ≤ (asc 6 0x536563723374).length ∧ (49 : Int) ≤ 49 ∧
    drawsFit (split [1, 2] (chunkSize 49)) [⟨upFrom 16 0, upFrom 14 0⟩, ⟨upFrom 16 9, upFrom 14 0⟩] :=
  ⟨by decide, by decide, by decide, witness_drawsFit.2.1⟩

/-- The `Encrypt` driver starts: for the empty payload, and for one of two bytes at the least capacity. -/
theorem witness_encryptDriver (payload : Bytes) :
    ∃ items, startEncrypt Config.params payload k1 49 = .ok items := by
  refine ⟨encryptItems k1 (split payload 1), ?_⟩
  rw [startEncrypt, if_neg (by decide), if_neg]
  · rfl
  · show ¬ Config.ibufExtra + 32 < 1
    omega

/-- The `Decrypt` driver starts, for one good block. -/
theorem witness_decryptDriver : ∃ items, startDecrypt Config.params [e1Text] k1 = .ok items := by
  have h : rawLength e1Text = 32 := by decide +kernel
  refine ⟨decryptItems (drainsEach Config.params [e1Text]) k1 [e1Text], ?_⟩
  rw [startDecrypt, if_neg]
  simp [h, Config.params]

end Sys2Proof.Tests
end

section
/-! The lengths of padded chunk, ciphertext and frame, and the two parts of a frame (R140, R144, R148). -/

namespace Sys2Proof.Machine

/-! ## Pad count and frame length -/

/-- R140: padding fills up to the next multiple of the block length. -/
theorem add_padLen (n : Nat) : n + padLen n = 16 * (n / 16 + 1) := by unfold padLen; omega

/-- R140: a chunk of whole blocks gets a whole block of padding. -/
theorem padLen_of_mod_eq_zero {n : Nat} (h : n % 16 = 0) : padLen n = 16 := by simp [padLen, h]

/-- R148: the IV's 16 bytes before the padded length. -/
theorem frameLen_eq_iv_add_blocks (n : Nat) : frameLen n = 16 + 16 * (n / 16 + 1) := by
  rw [frameLen, Nat.add_right_comm, add_padLen, Nat.add_comm]

theorem add_seventeen_le_frameLen (n : Nat) : n + 17 ≤ frameLen n := by
  have := padLen_pos n
  unfold frameLen; omega

theorem frameLen_le_add_thirtyTwo (n : Nat) : frameLen n ≤ n + 32 := by
  have := padLen_le n
  unfold frameLen; omega

/-! ## The two parts of a frame -/

variable (k : Key) (chunk : Bytes) {iv fill : Bytes}

/-- R144: taking a frame apart gives the IV and the ciphertext it was made of. -/
theorem unframe_frame (h : iv.length = 16) (c : Bytes) : unframe (frame iv c) = (iv, c) := by
  rw [unframe, frame, List.take_left' h, List.drop_left' h]

theorem encChunk_take (h : iv.length = 16) : (encChunk k chunk iv fill).take 16 = iv :=
  congrArg Prod.fst (unframe_frame h _)

theorem encChunk_drop (h : iv.length = 16) : (encChunk k chunk iv fill).drop 16 = cbcEnc k iv (pad chunk fill) :=
  congrArg Prod.snd (unframe_frame h _)

variable {chunk}

/-- R141: a padded chunk is whole blocks, one more than the chunk fills. -/
theorem pad_length_eq_blocks (h : fill.length = padLen chunk.length - 1) :
    (pad chunk fill).length = 16 * (chunk.length / 16 + 1) := by
  rw [pad_length h, add_padLen]

/-- R148: the ciphertext is as long as the padded chunk. -/
theorem cbcEnc_pad_length (h : fill.length = padLen chunk.length - 1) :
    (cbcEnc k iv (pad chunk fill)).length = 16 * (chunk.length / 16 + 1) := by
  rw [cbcEnc_length, pad_length_eq_blocks h, Nat.mul_div_cancel_left _ (by decide)]

/-- R148: the frame `EncChunk` makes has the length `FrameLen` says. -/
theorem encChunk_length (hiv : iv.length = 16) (hfill : fill.length = padLen chunk.length - 1) :
    (encChunk k chunk iv fill).length = frameLen chunk.length := by
  rw [encChunk, frame, List.length_append, hiv, cbcEnc_pad_length k hfill, frameLen_eq_iv_add_blocks]

end Sys2Proof.Machine
end

section
/-! The statements of padding and framing: O37 and O40. -/

namespace Sys2Proof.Machine

/-- Settles O37, from the bounds of the pad count and the rounding `add_padLen`. -/
theorem padLenRoundsUpToTheNextBlock : Obligations.PadLenRoundsUpToTheNextBlock :=
  fun n => ⟨rfl, padLen_pos n, padLen_le n, add_padLen n, padLen_of_mod_eq_zero⟩

/-- Settles O40: the padded chunk is whole blocks, CBC keeps their number, and the frame puts the IV's 16 bytes
before them. -/
theorem frameIsIvThenWholeCipherBlocks : Obligations.FrameIsIvThenWholeCipherBlocks := by
  intro k chunk iv fill hiv hfill
  have hcipher : ((encChunk k chunk iv fill).drop 16).length = 16 * (chunk.length / 16 + 1) := by
    rw [encChunk_drop k chunk hiv, cbcEnc_pad_length k hfill]
  exact ⟨pad_length hfill, pad_length_eq_blocks hfill, hcipher, encChunk_length k hiv hfill,
    frameLen_eq_iv_add_blocks _, rfl, add_seventeen_le_frameLen _, frameLen_le_add_thirtyTwo _,
    encChunk_take k chunk hiv⟩

end Sys2Proof.Machine
end

section
/-! Reserved command words (R83, R175): O16. -/

namespace Sys2Proof.Machine

/-- R81: the word of every command lies in the opcode map. -/
theorem commandWordDefined_encode : ∀ i : Instr, commandWordDefined (encode i) = true
  | .keyld => rfl
  | .enc => rfl
  | .dec => rfl
  | .clr => rfl

/-- R170, R175: a reserved word reaches none of the four commands. -/
theorem cmd_of_reserved {w : Byte} (hw : commandWordDefined w = false) (s : State) : cmd w s = execReserved s := by
  obtain ⟨i, rfl, _⟩ | ⟨_, hc⟩ := cmd_cases w s
  · rw [commandWordDefined_encode] at hw; cases hw
  · exact hc

theorem execReserved_of_clear {s : State} (h : s.errcode = 0) :
    execReserved s = .next (s.record .illegalCommand).retire :=
  unlessError_of_clear h _

theorem execReserved_of_error {s : State} (h : s.errcode ≠ 0) : execReserved s = .next s.retire :=
  unlessError_of_error h _

/-- Settles O16: the step is that of a reserved word, whose two ends are told apart by whether an error stands. -/
theorem reservedWordRecordsIllegalCommand : Obligations.ReservedWordRecordsIllegalCommand := by
  intro s w rest hs hw
  rw [step_cmd hs, cmd_of_reserved hw]
  by_cases he : s.errcode = 0
  · exact ⟨_, execReserved_of_clear he, fun _ => rfl, fun hne => absurd he hne⟩
  · exact ⟨_, execReserved_of_error he, fun h => absurd h he, fun _ => rfl⟩

end Sys2Proof.Machine
end

section
/-! The text form of a frame (R206, R207): decoding undoes encoding, and a text that decodes is the one its bytes encode
to. -/

namespace Sys2Proof.Machine

/-! ## The alphabet -/

/-- R206: character to index undoes index to character. -/
theorem b64Val_b64Char {v : Nat} (h : v < 64) : b64Val (b64Char v) = some v := by
  unfold b64Char b64Val
  grind

/-- R206: only the 64 characters of the alphabet have an index. -/
theorem lt_and_eq_b64Char_of_b64Val {c v : Nat} (h : b64Val c = some v) : v < 64 ∧ c = b64Char v := by
  unfold b64Val at h
  unfold b64Char
  grind

/-- R206: `=` is not in the alphabet. -/
theorem b64Val_padChar : b64Val padChar = none := rfl

theorem b64Char_ne_padChar {v : Nat} (h : v < 64) : b64Char v ≠ padChar := by
  intro hpad
  have hval := b64Val_b64Char h
  rw [hpad, b64Val_padChar] at hval; cases hval

/-! ## Three bytes as a 24-bit number -/

theorem group24_lt (a b c : Byte) : group24 a b c < 16777216 := by
  unfold group24; omega

theorem ofNat_group24_div_65536 (a b c : Byte) : BitVec.ofNat 8 (group24 a b c / 65536) = a := by
  unfold group24; bv_omega

theorem ofNat_group24_div_256 (a b c : Byte) : BitVec.ofNat 8 (group24 a b c / 256) = b := by
  unfold group24; bv_omega

theorem ofNat_group24 (a b c : Byte) : BitVec.ofNat 8 (group24 a b c) = c := by
  unfold group24; bv_omega

/-- R206: the three bytes a 24-bit number is cut into have that number. -/
theorem group24_ofNat {n : Nat} (h : n < 16777216) :
    group24 (BitVec.ofNat 8 (n / 65536)) (BitVec.ofNat 8 (n / 256)) (BitVec.ofNat 8 n) = n := by
  simp only [group24, BitVec.toNat_ofNat]; omega

/-! ## A group of four characters of the alphabet -/

theorem b64Full_b64Char {v0 v1 v2 v3 : Nat} (h0 : v0 < 64) (h1 : v1 < 64) (h2 : v2 < 64) (h3 : v3 < 64) :
    b64Full (b64Char v0) (b64Char v1) (b64Char v2) (b64Char v3) =
      some [BitVec.ofNat 8 ((v0 * 262144 + v1 * 4096 + v2 * 64 + v3) / 65536),
        BitVec.ofNat 8 ((v0 * 262144 + v1 * 4096 + v2 * 64 + v3) / 256),
        BitVec.ofNat 8 (v0 * 262144 + v1 * 4096 + v2 * 64 + v3)] := by
  simp only [b64Full, b64Val_b64Char h0, b64Val_b64Char h1, b64Val_b64Char h2, b64Val_b64Char h3]

/-- R207: the four characters of three bytes decode to them. -/
theorem b64Full_encode (a b c : Byte) :
    b64Full (b64Char (group24 a b c / 262144)) (b64Char (group24 a b c / 4096 % 64)) (b64Char (group24 a b c / 64 % 64))
      (b64Char (group24 a b c % 64)) = some [a, b, c] := by
  have hlt := group24_lt a b c
  have hsum : group24 a b c / 262144 * 262144 + group24 a b c / 4096 % 64 * 4096 + group24 a b c / 64 % 64 * 64
      + group24 a b c % 64 = group24 a b c := by omega
  rw [b64Full_b64Char (by omega) (by omega) (by omega) (by omega), hsum, ofNat_group24_div_65536, ofNat_group24_div_256,
    ofNat_group24]

/-- R207: four characters that decode as a full group are what the group writes, before whatever follows it. -/
theorem b64Enc_append_of_b64Full {c0 c1 c2 c3 : Nat} {g : Bytes} (h : b64Full c0 c1 c2 c3 = some g) (rest : Bytes) :
    b64Enc (g ++ rest) = c0 :: c1 :: c2 :: c3 :: b64Enc rest := by
  unfold b64Full at h
  split at h
  case h_1 v0 v1 v2 v3 e0 e1 e2 e3 =>
    obtain ⟨h0, rfl⟩ := lt_and_eq_b64Char_of_b64Val e0
    obtain ⟨h1, rfl⟩ := lt_and_eq_b64Char_of_b64Val e1
    obtain ⟨h2, rfl⟩ := lt_and_eq_b64Char_of_b64Val e2
    obtain ⟨h3, rfl⟩ := lt_and_eq_b64Char_of_b64Val e3
    cases h
    simp only [List.cons_append, List.nil_append, b64Enc, List.cons.injEq, and_true]
    rw [group24_ofNat (by omega)]
    refine ⟨?_, ?_, ?_, ?_⟩ <;> congr 1 <;> omega
  case h_2 => cases h

theorem ne_padChar_of_b64Full {c0 c1 c2 c3 : Nat} {g : Bytes} (h : b64Full c0 c1 c2 c3 = some g) : c3 ≠ padChar := by
  rintro rfl
  unfold b64Full at h
  split at h
  case h_1 hpad => rw [b64Val_padChar] at hpad; cases hpad
  case h_2 => cases h

/-! ## The last group -/

/-- R207: a group that ends without `=` decodes in last place as anywhere else. -/
theorem b64Last_of_ne_padChar {c0 c1 c2 c3 : Nat} (h : c3 ≠ padChar) : b64Last c0 c1 c2 c3 = b64Full c0 c1 c2 c3 :=
  if_neg h

/-- R207: one byte leaves four unused bits, written as zero and read back as zero. -/
theorem b64Last_encode_one (a : Byte) :
    b64Last (b64Char (group24 a 0 0 / 262144)) (b64Char (group24 a 0 0 / 4096 % 64)) padChar padChar = some [a] := by
  have hlt := group24_lt a 0 0
  have hbits : group24 a 0 0 / 4096 % 64 % 16 = 0 := by unfold group24; bv_omega
  have hbyte : group24 a 0 0 / 262144 * 4 + group24 a 0 0 / 4096 % 64 / 16 = group24 a 0 0 / 65536 := by omega
  simp only [b64Last, ↓reduceIte, b64Val_b64Char (show group24 a 0 0 / 262144 < 64 by omega),
    b64Val_b64Char (show group24 a 0 0 / 4096 % 64 < 64 by omega), hbits, hbyte, ofNat_group24_div_65536]

/-- R207: two bytes leave two unused bits, written as zero and read back as zero. -/
theorem b64Last_encode_two (a b : Byte) :
    b64Last (b64Char (group24 a b 0 / 262144)) (b64Char (group24 a b 0 / 4096 % 64)) (b64Char (group24 a b 0 / 64 % 64))
      padChar = some [a, b] := by
  have hlt := group24_lt a b 0
  have hbits : group24 a b 0 / 64 % 64 % 4 = 0 := by unfold group24; bv_omega
  have hbytes : group24 a b 0 / 262144 * 1024 + group24 a b 0 / 4096 % 64 * 16 + group24 a b 0 / 64 % 64 / 4
      = group24 a b 0 / 256 := by omega
  simp only [b64Last, ↓reduceIte, b64Char_ne_padChar (show group24 a b 0 / 64 % 64 < 64 by omega),
    b64Val_b64Char (show group24 a b 0 / 262144 < 64 by omega),
    b64Val_b64Char (show group24 a b 0 / 4096 % 64 < 64 by omega),
    b64Val_b64Char (show group24 a b 0 / 64 % 64 < 64 by omega), hbits, hbytes, Nat.div_div_eq_div_mul, Nat.reduceMul,
    ofNat_group24_div_65536, ofNat_group24_div_256]

/-- R207: the last group decodes only if it is what its bytes write, be they one, two or three. -/
theorem b64Enc_of_b64Last {c0 c1 c2 c3 : Nat} {g : Bytes} (h : b64Last c0 c1 c2 c3 = some g) :
    b64Enc g = [c0, c1, c2, c3] := by
  unfold b64Last at h
  split_ifs at h with hc3 hc2
  case pos =>
    subst hc3 hc2
    split at h
    case h_1 v0 v1 e0 e1 =>
      obtain ⟨h0, rfl⟩ := lt_and_eq_b64Char_of_b64Val e0
      obtain ⟨h1, rfl⟩ := lt_and_eq_b64Char_of_b64Val e1
      split_ifs at h with hbits
      cases h
      simp only [b64Enc, group24, BitVec.toNat_ofNat, BitVec.ofNat_eq_ofNat, List.cons.injEq, and_true]
      refine ⟨?_, ?_⟩ <;> congr 1 <;> omega
    case h_2 => cases h
  case neg =>
    subst hc3
    split at h
    case h_1 v0 v1 v2 e0 e1 e2 =>
      obtain ⟨h0, rfl⟩ := lt_and_eq_b64Char_of_b64Val e0
      obtain ⟨h1, rfl⟩ := lt_and_eq_b64Char_of_b64Val e1
      obtain ⟨h2, rfl⟩ := lt_and_eq_b64Char_of_b64Val e2
      split_ifs at h with hbits
      cases h
      simp only [b64Enc, group24, BitVec.toNat_ofNat, BitVec.ofNat_eq_ofNat, List.cons.injEq, and_true]
      refine ⟨?_, ?_, ?_⟩ <;> congr 1 <;> omega
    case h_2 => cases h
  case neg => simpa [b64Enc] using b64Enc_append_of_b64Full h []

/-! ## A whole text -/

/-- R207: a full group decodes before what follows it, in last place too. -/
theorem b64Groups_of_b64Full {c0 c1 c2 c3 : Nat} {g : Bytes} (h : b64Full c0 c1 c2 c3 = some g) (rest : Text) :
    b64Groups (c0 :: c1 :: c2 :: c3 :: rest) = (b64Groups rest).map (g ++ ·) := by
  cases rest with
  | nil => simp [b64Groups, b64Last_of_ne_padChar (ne_padChar_of_b64Full h), h]
  | cons c4 rest =>
    rw [b64Groups, h]
    · cases b64Groups (c4 :: rest) <;> rfl
    · exact List.cons_ne_nil c4 rest

theorem b64Groups_b64Enc (f : Bytes) : b64Groups (b64Enc f) = some f := by
  induction f using b64Enc.induct with
  | case1 => rfl
  | case2 a => exact b64Last_encode_one a
  | case3 a b => exact b64Last_encode_two a b
  | case4 a b c rest ih =>
    rw [b64Enc, b64Groups_of_b64Full (b64Full_encode a b c), ih]
    rfl

/-- R207: a text of more than one group decodes only if its first group is full and what follows decodes. -/
theorem b64Groups_cons_eq_some {c0 c1 c2 c3 c4 : Nat} {rest : Text} {f : Bytes}
    (h : b64Groups (c0 :: c1 :: c2 :: c3 :: c4 :: rest) = some f) :
    ∃ g f', b64Full c0 c1 c2 c3 = some g ∧ b64Groups (c4 :: rest) = some f' ∧ f = g ++ f' := by
  unfold b64Groups at h
  split at h
  case h_1 g f' hfull hrest => cases h; exact ⟨g, f', hfull, hrest, rfl⟩
  case h_2 => cases h

theorem b64Enc_of_b64Groups : ∀ {t : Text} {f : Bytes}, b64Groups t = some f → b64Enc f = t
  | [], _, h => by cases h; rfl
  | [_, _, _, _], _, h => b64Enc_of_b64Last h
  | _ :: _ :: _ :: _ :: _ :: _, _, h => by
    obtain ⟨g, f', hfull, hrest, rfl⟩ := b64Groups_cons_eq_some h
    rw [b64Enc_append_of_b64Full hfull, b64Enc_of_b64Groups hrest]

theorem b64Dec_of_b64Groups {t : Text} {f : Bytes} (h : b64Groups t = some f) : b64Dec t = .ok f := by
  rw [b64Dec, h]

theorem b64Groups_of_b64Dec {t : Text} {f : Bytes} (h : b64Dec t = .ok f) : b64Groups t = some f := by
  unfold b64Dec at h
  split at h
  case h_1 hf => cases h; exact hf
  case h_2 => cases h

/-- R207: every failure of `B64Dec` is `MalformedBlock`. -/
theorem b64Dec_ok_or_malformedBlock (t : Text) : (∃ f, b64Dec t = .ok f) ∨ b64Dec t = .error .malformedBlock := by
  unfold b64Dec
  split
  · exact .inl ⟨_, rfl⟩
  · exact .inr rfl

/-- R207: `B64Dec` returns `F` exactly on `B64Enc(F)`. -/
theorem b64Dec_eq_ok_iff {t : Text} {f : Bytes} : b64Dec t = .ok f ↔ t = b64Enc f := by
  constructor
  · exact fun h => (b64Enc_of_b64Groups (b64Groups_of_b64Dec h)).symm
  · rintro rfl
    exact b64Dec_of_b64Groups (b64Groups_b64Enc f)

/-- Settles O47: success is `b64Dec_eq_ok_iff`, and a text that is no encoding leaves only the failure. -/
theorem b64DecIsTheStrictInverse : Obligations.B64DecIsTheStrictInverse := by
  refine fun t => ⟨fun _ => b64Dec_eq_ok_iff, fun hnone => ?_⟩
  obtain ⟨f, hf⟩ | herr := b64Dec_ok_or_malformedBlock t
  · exact absurd (b64Dec_eq_ok_iff.mp hf) (hnone f)
  · exact herr

end Sys2Proof.Machine
end

section
/-! The capacity check that `Encrypt` begins with (R210): O50. -/

namespace Sys2Proof.Machine

variable {cap : Int} (p : Params) (payload : Bytes) (k : Key) (draws : List Draw)

theorem encryptCall_of_le_overhead (h : cap ≤ 48) :
    encryptCall payload k cap draws = .error (.failed .chunkCapacityTooSmall) := if_pos h

theorem encryptCall_of_overhead_lt (h : 48 < cap) :
    encryptCall payload k cap draws = .ok (List.zipWith (encryptChunk k) (split payload (chunkSize cap)) draws) :=
  if_neg (Int.not_le.mpr h)

/-- R208, R210: the driver checks the capacity before it issues anything. -/
theorem startEncrypt_of_le_overhead (h : cap ≤ 48) :
    startEncrypt p payload k cap = .error (.failed .chunkCapacityTooSmall) := if_pos h

/-- Settles O50: both clauses are the branches of the capacity check. -/
theorem capacityMustExceedTheOverhead : Obligations.CapacityMustExceedTheOverhead := fun p payload k _ draws =>
  ⟨fun h => ⟨encryptCall_of_le_overhead payload k draws h, startEncrypt_of_le_overhead p payload k h⟩,
    fun h => ⟨_, encryptCall_of_overhead_lt payload k draws h⟩⟩

end Sys2Proof.Machine
end

section
/-! How each command and port operation ends, one equation for each condition: the converse of the `_cases` lemmas of
Laws/Commands. -/

namespace Sys2Proof.Machine

variable {p : Params} {s : State}

/-! ## KEYLD (R171) -/

theorem execKeyld_of_length_ne (he : s.errcode = 0) (h : s.ibuf.length ≠ 32) :
    execKeyld s = .next (s.record .illegalCommand).retire := by
  simp [execKeyld, unlessError_of_clear he, h]

theorem execKeyld_of_length (he : s.errcode = 0) (h : s.ibuf.length = 32) :
    execKeyld s = .next ((s.loadKey (Key.ofBytes s.ibuf)).consume).retire := by
  simp [execKeyld, unlessError_of_clear he, h]

/-! ## ENC (R172) -/

theorem encIn_of_noKey (he : s.errcode = 0) (hk : s.keyv = false) : encIn p s = .next (s.record .noKey).retire := by
  simp [encIn, unlessError_of_clear he, hk]

theorem encIn_of_ready (h : EncReady p s) : encIn p s = .next (encrypt s).retire := by
  simp [encIn, unlessError_of_clear h.errcode, h.keyv, State.hasRoom, h.room]

theorem encIn_of_noRoom (he : s.errcode = 0) (hk : s.keyv = true)
    (h : p.obufCap < s.obuf.length + frameLen s.ibuf.length) : encIn p s = .next s := by
  simp [encIn, unlessError_of_clear he, hk, State.hasRoom, not_le.mpr h]

/-! ## DEC (R173) -/

theorem decIn_of_noKey (he : s.errcode = 0) (hk : s.keyv = false) : decIn p s = .next (s.record .noKey).retire := by
  simp [decIn, unlessError_of_clear he, hk]

theorem decIn_of_decFrame_error {e : ErrorKind} (he : s.errcode = 0) (hk : s.keyv = true)
    (hd : decFrame s.key s.ibuf = .error e) : decIn p s = .next (s.record e).retire := by
  simp [decIn, unlessError_of_clear he, hk, hd]

theorem decIn_of_ready {chunk : Bytes} (h : DecReady p s) (hd : decFrame s.key s.ibuf = .ok chunk) :
    decIn p s = .next (deliver chunk s).retire := by
  simp [decIn, unlessError_of_clear h.errcode, h.keyv, hd, State.hasRoom, h.room]

theorem decIn_of_noRoom {chunk : Bytes} (he : s.errcode = 0) (hk : s.keyv = true)
    (hd : decFrame s.key s.ibuf = .ok chunk) (h : p.obufCap < s.obuf.length + (s.ibuf.length - 17)) :
    decIn p s = .next s := by
  simp [decIn, unlessError_of_clear he, hk, hd, State.hasRoom, not_le.mpr h]

/-! ## PUSH and POP (R51, R52) -/

theorem pushIn_of_lt {b : Byte} (h : s.ibuf.length < p.ibufCap) :
    pushIn p b s = .next ({ s with ibuf := s.ibuf ++ [b] } : State).retire := if_pos h

theorem pushIn_of_le {b : Byte} (h : p.ibufCap ≤ s.ibuf.length) : pushIn p b s = .next s := if_neg (not_lt.mpr h)

theorem pop_of_nil (h : s.obuf = []) : pop s = .next s := by simp [pop, h]

theorem pop_of_cons {b : Byte} {bs : Bytes} (h : s.obuf = b :: bs) :
    pop s = .next (({ s with obuf := bs } : State).answer (.byte b)).retire := by simp [pop, h]

/-! ## Command words (R81, R170) -/

theorem cmd_of_decodeWord {w : Byte} {i : Instr} (h : decodeWord w = .ok i) : cmd w s = exec i s := by
  rw [cmd, h]

theorem cmd_of_decodeWord_error {w : Byte} {e : DecodeError} (h : decodeWord w = .error e) :
    cmd w s = execReserved s := by
  rw [cmd, h]

end Sys2Proof.Machine
end

section
/-! Every command and every step answers a next state (R11, R83): O22. -/

namespace Sys2Proof.Machine

theorem exec_answers (i : Instr) (s : State) : ∃ t, exec i s = .next t := by
  by_cases he : s.errcode = 0
  case neg =>
    cases i with
    | clr => exact ⟨_, execClr_eq s⟩
    | keyld | enc | dec => exact ⟨_, unlessError_of_error he _⟩
  cases i with
  | clr => exact ⟨_, execClr_eq s⟩
  | keyld =>
    by_cases hl : s.ibuf.length = 32
    · exact ⟨_, execKeyld_of_length he hl⟩
    · exact ⟨_, execKeyld_of_length_ne he hl⟩
  | enc =>
    cases hk : s.keyv with
    | false => exact ⟨_, encIn_of_noKey he hk⟩
    | true =>
      obtain hr | hr := le_or_gt (s.obuf.length + frameLen s.ibuf.length) Config.params.obufCap
      · exact ⟨_, encIn_of_ready ⟨he, hk, hr⟩⟩
      · exact ⟨_, encIn_of_noRoom he hk hr⟩
  | dec =>
    cases hk : s.keyv with
    | false => exact ⟨_, decIn_of_noKey he hk⟩
    | true =>
      cases hd : decFrame s.key s.ibuf with
      | error e => exact ⟨_, decIn_of_decFrame_error he hk hd⟩
      | ok chunk =>
        obtain hr | hr := le_or_gt (s.obuf.length + (s.ibuf.length - 17)) Config.params.obufCap
        · exact ⟨_, decIn_of_ready ⟨he, hk, hr⟩ hd⟩
        · exact ⟨_, decIn_of_noRoom he hk hd hr⟩

theorem execReserved_answers (s : State) : ∃ t, execReserved s = .next t := by
  by_cases he : s.errcode = 0
  · exact ⟨_, execReserved_of_clear he⟩
  · exact ⟨_, execReserved_of_error he⟩

theorem issue_answers (o : PortOp) (s : State) : ∃ t, issue o s = .next t := by
  cases o with
  | push b =>
    obtain hl | hl := lt_or_ge s.ibuf.length Config.params.ibufCap
    · exact ⟨_, pushIn_of_lt hl⟩
    · exact ⟨_, pushIn_of_le hl⟩
  | pop =>
    cases ho : s.obuf with
    | nil => exact ⟨_, pop_of_nil ho⟩
    | cons b bs => exact ⟨_, pop_of_cons ho⟩
  | rdreg n => exact ⟨_, rdreg_eq n s⟩
  | cmd w =>
    obtain ⟨i, _, hc⟩ | ⟨_, hc⟩ := cmd_cases w s
    · obtain ⟨t, ht⟩ := exec_answers i s
      exact ⟨t, hc.trans ht⟩
    · obtain ⟨t, ht⟩ := execReserved_answers s
      exact ⟨t, hc.trans ht⟩
  | reset => exact ⟨_, reset_eq s⟩

theorem step_answers (s : State) : ∃ t, step s = .next t := by
  match hs : s.script with
  | [] => exact ⟨_, step_idle hs⟩
  | .op o :: _ =>
    have hstep : step s = issue o s := by rw [step, hs]; rfl
    exact hstep ▸ issue_answers o s
  | .drain :: _ => exact ⟨_, step_drain hs⟩
  | .stopOnError :: _ => exact ⟨_, step_stopOnError hs⟩
  | .rng _ :: _ => exact ⟨_, step_rng hs⟩

/-- Settles O22: each way the commands, the port operations and the script's other entries end is a next state. -/
theorem everyStepAnswersANextState : Obligations.EveryStepAnswersANextState :=
  ⟨fun s i => exec_answers i s, step_answers⟩

end Sys2Proof.Machine
end

section
/-! The invariants of R35: O25 and O26. -/

namespace Sys2Proof.Machine

/-- R172: the draws of ENC make a frame of exactly the length the room check counted. -/
theorem encrypt_obuf_length (s : State) :
    (encrypt s).obuf.length = s.obuf.length + frameLen s.ibuf.length := by
  simp [encrypt, encChunk_length]

/-- R240: the codes the engine records are legal values of `ERRCODE`. -/
theorem errcodeLegal_code {k : ErrorKind}
    (h : k ∈ [ErrorKind.malformedBlock, .decryptionFailed, .noKey, .illegalCommand]) : errcodeLegal k.code := by
  simp only [List.mem_cons, List.not_mem_nil, or_false] at h
  obtain rfl | rfl | rfl | rfl := h <;> simp [errcodeLegal, ErrorKind.code]

/-- R34: the cleared engine meets the invariants, whatever was before. -/
theorem State.inv_cleared (s : State) : s.cleared.Inv :=
  ⟨Nat.zero_le _, Nat.zero_le _, fun _ => rfl, .inl rfl⟩

theorem State.Inv.retire {s : State} (h : s.Inv) : s.retire.Inv := ⟨h.ibuf, h.obuf, h.key, h.errcode⟩

/-- R35: every way a step can end keeps the invariants. -/
theorem State.Inv.stepCase {s t : State} (hi : s.Inv) (h : StepCase s t) : t.Inv := by
  obtain ⟨hibuf, hobuf, hkey, herr⟩ := hi
  cases h with
  | idle | held | rdreg | ignored | drain | stopOnError | rng => exact ⟨hibuf, hobuf, hkey, herr⟩
  | push _ hroom => exact ⟨by simpa using hroom, hobuf, hkey, herr⟩
  | pop _ ho => exact ⟨hibuf, (by simp [ho] at hobuf ⊢; omega), hkey, herr⟩
  | reset | clr => exact s.inv_cleared.retire
  | failed _ _ hk => exact ⟨hibuf, hobuf, hkey, errcodeLegal_code hk⟩
  | keyld => exact ⟨Nat.zero_le _, hobuf, fun hv => Bool.noConfusion hv, herr⟩
  | enc _ hr => exact ⟨Nat.zero_le _, (encrypt_obuf_length s).trans_le hr.room, hkey, herr⟩
  | dec _ hr hd =>
    have hlen := decFrame_ok_length hd
    have hroom := hr.room
    exact ⟨Nat.zero_le _, by simp [deliver]; omega, hkey, herr⟩

/-- Settles O25: the reset state is a cleared one. -/
theorem invariantHoldsAtReset : Obligations.InvariantHoldsAtReset :=
  ⟨State.reset.inv_cleared, rfl, rfl, rfl, rfl, rfl⟩

/-- Settles O26, by cases on what a step can do. -/
theorem everyStepKeepsTheInvariant : Obligations.EveryStepKeepsTheInvariant :=
  fun _ _ hi h => hi.stepCase (step_cases h)

end Sys2Proof.Machine
end

section
/-! What a step can depend on the value of `KEY` for (R21, R22): O29 and O30. -/

namespace Sys2Proof.Machine

/-! ## States and outcomes that differ at most in `KEY` -/

/-- Both operations have happened, and left states that differ at most in `KEY`. -/
def AgreeButKey (o o' : Outcome) : Prop := ∃ s' t', o = .next s' ∧ o' = .next t' ∧ SameButKey s' t'

theorem sameButKey_iff_exists {s t : State} : SameButKey s t ↔ ∃ k, t = { s with key := k } := by
  constructor
  · exact fun h => ⟨t.key, h⟩
  · rintro ⟨k, rfl⟩
    rfl

theorem AgreeButKey.next {s t : State} (h : SameButKey s t) : AgreeButKey (.next s) (.next t) := ⟨s, t, rfl, rfl, h⟩

/-- R243: the sticky error is no part of `KEY`, so a guarded command depends on `KEY` only through its body. -/
theorem AgreeButKey.unlessError {s t : State} {body body' : Outcome} (h : SameButKey s t)
    (hb : s.errcode = 0 → AgreeButKey body body') :
    AgreeButKey (unlessError s body) (unlessError t body') := by
  obtain ⟨k, rfl⟩ := sameButKey_iff_exists.mp h
  by_cases he : s.errcode = 0
  · rw [unlessError_of_clear he, unlessError_of_clear (by exact he)]
    exact hb he
  · rw [unlessError_of_error he, unlessError_of_error (by exact he)]
    exact .next rfl

/-! ## The commands -/

section
variable {s t : State} (h : SameButKey s t)
include h

/-- R171: KEYLD overwrites the key without reading it. -/
theorem SameButKey.execKeyld : AgreeButKey (execKeyld s) (execKeyld t) := by
  refine .unlessError h fun _ => ?_
  obtain ⟨k, rfl⟩ := sameButKey_iff_exists.mp h
  by_cases hl : s.dataOperand.length ≠ 32
  · rw [if_pos hl, if_pos (by exact hl)]
    exact .next rfl
  · rw [if_neg hl, if_neg (by exact hl)]
    exact .next rfl

theorem SameButKey.execReserved : AgreeButKey (execReserved s) (execReserved t) := by
  refine .unlessError h fun _ => ?_
  obtain ⟨k, rfl⟩ := sameButKey_iff_exists.mp h
  exact .next rfl

theorem SameButKey.execClr : AgreeButKey (execClr s) (execClr t) := by
  obtain ⟨k, rfl⟩ := sameButKey_iff_exists.mp h
  exact .next rfl

/-- R22, R172: without a valid key ENC fails before it reads the key. -/
theorem SameButKey.execEnc_of_noKey (hk : s.keyv = false) : AgreeButKey (execEnc s) (execEnc t) := by
  refine .unlessError h fun _ => ?_
  obtain ⟨k, rfl⟩ := sameButKey_iff_exists.mp h
  rw [if_pos hk, if_pos (by exact hk)]
  exact .next rfl

/-- R22, R173: without a valid key DEC fails before it reads the key. -/
theorem SameButKey.execDec_of_noKey (hk : s.keyv = false) : AgreeButKey (execDec s) (execDec t) := by
  refine .unlessError h fun _ => ?_
  obtain ⟨k, rfl⟩ := sameButKey_iff_exists.mp h
  rw [if_pos hk, if_pos (by exact hk)]
  exact .next rfl

/-- R21: a command word uses the key only if it is ENC's or DEC's and the key is valid. -/
theorem SameButKey.cmd (w : Byte) (hw : s.keyv = true → w ≠ 0x02 ∧ w ≠ 0x03) : AgreeButKey (cmd w s) (cmd w t) := by
  cases hd : decodeWord w with
  | error e =>
    rw [cmd_of_decodeWord_error hd, cmd_of_decodeWord_error hd]
    exact h.execReserved
  | ok i =>
    rw [cmd_of_decodeWord hd, cmd_of_decodeWord hd]
    obtain rfl := (decodeWord_ok_iff w i).mp hd
    cases i with
    | keyld => exact h.execKeyld
    | clr => exact h.execClr
    | enc => exact h.execEnc_of_noKey (Bool.eq_false_iff.mpr fun hk => (hw hk).1 rfl)
    | dec => exact h.execDec_of_noKey (Bool.eq_false_iff.mpr fun hk => (hw hk).2 rfl)

/-! ## The other port operations and a step -/

theorem SameButKey.push (b : Byte) : AgreeButKey (push b s) (push b t) := by
  obtain ⟨k, rfl⟩ := sameButKey_iff_exists.mp h
  obtain hl | hl := lt_or_ge s.ibuf.length Config.params.ibufCap
  · exact ⟨_, _, pushIn_of_lt hl, pushIn_of_lt (by exact hl), rfl⟩
  · exact ⟨_, _, pushIn_of_le hl, pushIn_of_le (by exact hl), rfl⟩

theorem SameButKey.pop : AgreeButKey (pop s) (pop t) := by
  obtain ⟨k, rfl⟩ := sameButKey_iff_exists.mp h
  by_cases ho : s.obuf = []
  · exact ⟨_, _, pop_of_nil ho, pop_of_nil (by exact ho), rfl⟩
  · obtain ⟨b, bs, ho⟩ := List.exists_cons_of_ne_nil ho
    exact ⟨_, _, pop_of_cons ho, pop_of_cons (b := b) (bs := bs) ho, rfl⟩

/-- R21: a step uses the key only if it is a valid one's ENC or DEC. -/
theorem SameButKey.step (hh : s.keyv = true → ¬ headIs s [.cmd 0x02, .cmd 0x03]) :
    AgreeButKey (step s) (step t) := by
  have hst : t.script = s.script := by rw [h]
  match hs : s.script with
  | [] => rw [step_idle hs, step_idle (hst.trans hs)]; exact .next h
  | .op (.push b) :: _ => rw [step_push hs, step_push (hst.trans hs)]; exact h.push b
  | .op .pop :: _ => rw [step_pop hs, step_pop (hst.trans hs)]; exact h.pop
  | .op (.cmd w) :: _ =>
    rw [step_cmd hs, step_cmd (hst.trans hs)]
    refine h.cmd w fun hk => ?_
    simpa [headIs, hs, eq_comm] using hh hk
  | .op (.rdreg n) :: _ =>
    rw [step_rdreg hs, step_rdreg (hst.trans hs)]
    obtain ⟨k, rfl⟩ := sameButKey_iff_exists.mp h
    exact .next rfl
  | .op .reset :: _ =>
    rw [step_reset hs, step_reset (hst.trans hs)]
    obtain ⟨k, rfl⟩ := sameButKey_iff_exists.mp h
    exact .next rfl
  | .drain :: _ =>
    rw [step_drain hs, step_drain (hst.trans hs)]
    obtain ⟨k, rfl⟩ := sameButKey_iff_exists.mp h
    exact .next rfl
  | .stopOnError :: _ =>
    rw [step_stopOnError hs, step_stopOnError (hst.trans hs)]
    obtain ⟨k, rfl⟩ := sameButKey_iff_exists.mp h
    exact .next rfl
  | .rng bs :: _ =>
    rw [step_rng hs, step_rng (hst.trans hs)]
    obtain ⟨k, rfl⟩ := sameButKey_iff_exists.mp h
    exact .next rfl

end

/-- Settles O29: the head of the script excludes the two commands that use the key. -/
theorem onlyEncAndDecUseTheKey : Obligations.OnlyEncAndDecUseTheKey :=
  fun _ _ h hh => h.step fun _ => hh

/-- Settles O30: without a valid key ENC and DEC fail before they use it. -/
theorem noStepUsesAnUnloadedKey : Obligations.NoStepUsesAnUnloadedKey :=
  fun _ _ h hk => h.step fun hk' => absurd (hk.symm.trans hk') Bool.false_ne_true

end Sys2Proof.Machine
end

section
/-! What writes each element of the state, and what a failing command leaves (R20, R25, R242): O18, O27 and O28. -/

namespace Sys2Proof.Machine

variable {s t : State}

/-! ## Written by (R20) -/

theorem headIs_of_head? {ops : List PortOp} {o : PortOp} (h : s.script.head? = some (.op o)) (ho : o ∈ ops) :
    headIs s ops := ⟨o, ho, h⟩

/-- R21, R22: who writes `KEY` and `KEYV`. -/
theorem StepCase.headIs_of_key_ne (h : StepCase s t) (hne : t.key ≠ s.key ∨ t.keyv ≠ s.keyv) :
    headIs s [.cmd 0x01, .cmd 0x04, .reset] := by
  cases h with
  | keyld hh | clr hh | reset hh => exact headIs_of_head? hh (by simp)
  | _ => exact absurd hne (by simp [encrypt, deliver])

/-- R23: who writes `ERRCODE`. -/
theorem StepCase.head_of_errcode_ne (h : StepCase s t) (hne : t.errcode ≠ s.errcode) :
    (∃ w, s.script.head? = some (.op (.cmd w))) ∨ headIs s [.reset] := by
  cases h with
  | failed hh | clr hh => exact .inl ⟨_, hh⟩
  | reset hh => exact .inr (headIs_of_head? hh (by simp))
  | _ => exact absurd hne (by simp [encrypt, deliver])

/-- R24: who writes `IBUF`. -/
theorem StepCase.head_of_ibuf_ne (h : StepCase s t) (hne : t.ibuf ≠ s.ibuf) :
    (∃ b, s.script.head? = some (.op (.push b))) ∨
      headIs s [.cmd 0x01, .cmd 0x02, .cmd 0x03, .cmd 0x04, .reset] := by
  cases h with
  | push hh => exact .inl ⟨_, hh⟩
  | keyld hh | enc hh | dec hh | clr hh | reset hh => exact .inr (headIs_of_head? hh (by simp))
  | _ => exact absurd hne (by simp)

/-- R25: who writes `OBUF`. -/
theorem StepCase.headIs_of_obuf_ne (h : StepCase s t) (hne : t.obuf ≠ s.obuf) :
    headIs s [.pop, .cmd 0x02, .cmd 0x03, .cmd 0x04, .reset] := by
  cases h with
  | pop hh | enc hh | dec hh | clr hh | reset hh => exact headIs_of_head? hh (by simp)
  | _ => exact absurd hne (by simp)

/-- R182: who draws. -/
theorem StepCase.headIs_of_drawn_ne (h : StepCase s t) (hne : t.rng.drawn ≠ s.rng.drawn) : headIs s [.cmd 0x02] := by
  cases h with
  | enc hh => exact headIs_of_head? hh (by simp)
  | _ => exact absurd hne (by simp [deliver, Rng.fix])

/-- Settles O27, element by element. -/
theorem eachElementIsWrittenOnlyByItsOperations : Obligations.EachElementIsWrittenOnlyByItsOperations := by
  intro s t h
  have hc := step_cases h
  exact ⟨hc.headIs_of_key_ne, hc.head_of_errcode_ne, hc.head_of_ibuf_ne, hc.headIs_of_obuf_ne, hc.headIs_of_drawn_ne⟩

/-- Settles O28: ENC and DEC append their result, and of the other steps only the three excluded ones write `OBUF`. -/
theorem outputOnlyAccumulates : Obligations.OutputOnlyAccumulates := by
  intro s t h hh
  cases step_cases h with
  | enc => exact ⟨_, rfl⟩
  | dec => exact ⟨_, rfl⟩
  | pop hp | clr hp | reset hp => exact absurd (headIs_of_head? hp (by simp)) hh
  | _ => exact ⟨[], (List.append_nil _).symm⟩

/-! ## A failing command (R242) -/

/-- R242: a command word issued with no error recorded leaves `ERRCODE` as it is, or records one of the engine's four
kinds and does nothing else. -/
theorem cmd_errcode_cases {w : Byte} (h : cmd w s = .next t) (he : s.errcode = 0) :
    t.errcode = 0 ∨ ∃ k ∈ [ErrorKind.malformedBlock, .decryptionFailed, .noKey, .illegalCommand],
      t = (s.record k).retire := by
  obtain ⟨i, rfl, hc⟩ | ⟨_, hc⟩ := cmd_cases w s <;> rw [hc] at h
  · cases i with
    | keyld =>
      obtain ⟨_, rfl⟩ | ⟨_, _, rfl⟩ | ⟨_, _, rfl⟩ := execKeyld_cases h
      · exact .inl he
      · exact .inr ⟨_, by simp, rfl⟩
      · exact .inl he
    | enc =>
      obtain ⟨_, rfl⟩ | ⟨_, _, rfl⟩ | ⟨_, _, _, rfl⟩ | ⟨_, _, _, rfl⟩ := encIn_cases h
      · exact .inl he
      · exact .inr ⟨_, by simp, rfl⟩
      · exact .inl he
      · exact .inl he
    | dec =>
      obtain ⟨_, rfl⟩ | ⟨_, _, rfl⟩ | ⟨_, _, k, hk, rfl⟩ | ⟨_, _, c, _, _, rfl⟩ | ⟨_, _, _, _, _, rfl⟩ := decIn_cases h
      · exact .inl he
      · exact .inr ⟨_, by simp, rfl⟩
      · exact .inr ⟨k, by obtain rfl | rfl := decFrame_error hk <;> simp, rfl⟩
      · exact .inl he
      · exact .inl he
    | clr =>
      rw [exec, execClr_eq] at h
      cases h
      exact .inl rfl
  · obtain ⟨_, rfl⟩ | ⟨_, rfl⟩ := execReserved_cases h
    · exact .inl he
    · exact .inr ⟨_, by simp, rfl⟩

/-- Settles O18: a command word that makes `ERRCODE` non-zero has recorded an error kind and done nothing else. -/
theorem aFailingCommandChangesOnlyErrcode : Obligations.AFailingCommandChangesOnlyErrcode := by
  intro s t w h he hne
  obtain h0 | ⟨k, hk, rfl⟩ := cmd_errcode_cases h he
  · exact absurd h0 hne
  refine ⟨rfl, ?_⟩
  simp only [List.mem_cons, List.not_mem_nil, or_false] at hk
  obtain rfl | rfl | rfl | rfl := hk <;> simp [ErrorKind.code]

end Sys2Proof.Machine
end

section
/-! The four commands on the machine, their errors, their holds and the room they need (R62, R170 to R174, R241 to
R244): O10, O11, O13 to O15, O17, O19 and O20. -/

namespace Sys2Proof.Machine

/-- Settles O10: the step issues the word, and the word runs the command it decodes to. -/
theorem stepRunsTheDecodedCommand : Obligations.StepRunsTheDecodedCommand :=
  fun _ _ _ _ hs hw => (step_cmd hs).trans (cmd_of_decodeWord hw)

/-- Settles O11: 32 bytes are the one length KEYLD takes, and a key loaded from them is those bytes. -/
theorem keyldLoadsTheKey : Obligations.KeyldLoadsTheKey :=
  fun _ he hl => ⟨execKeyld_of_length he hl, Key.toList_ofBytes hl⟩

/-- Settles O14: CLR has one way to end. -/
theorem clrGivesTheResetState : Obligations.ClrGivesTheResetState :=
  fun s => ⟨_, execClr_eq s, ⟨rfl, rfl, rfl, rfl, rfl⟩, rfl, rfl, rfl⟩

/-! ## What decides how DEC ends -/

theorem unpad_of_legal_padCount {p : Bytes} (h1 : 1 ≤ padCount p) (h2 : padCount p ≤ 16) :
    unpad p = .ok (p.take (p.length - padCount p)) := by
  rw [unpad, if_neg (by omega)]

theorem unpad_of_illegal_padCount {p : Bytes} (h : ¬ (1 ≤ padCount p ∧ padCount p ≤ 16)) :
    unpad p = .error .decryptionFailed := by
  rw [unpad, if_pos (by omega)]

variable {k : Key} {f : Bytes}

theorem decFrame_of_length_lt (h : f.length < 16) : decFrame k f = .error .malformedBlock := if_pos h

theorem decFrame_of_not_blocks (h : f.length = 16 ∨ 16 < f.length ∧ f.length % 16 ≠ 0) :
    decFrame k f = .error .decryptionFailed := by
  obtain ⟨_, _⟩ | ⟨_, _, hd⟩ | ⟨_, _, _⟩ := decFrame_cases k f
  · omega
  · exact hd
  · omega

theorem decFrame_of_blocks (h : 32 ≤ f.length) (hm : f.length % 16 = 0) :
    decFrame k f = unpad (cbcDec k (f.take 16) (f.drop 16)) := by
  obtain ⟨_, _⟩ | ⟨_, _, _⟩ | ⟨_, _, hd⟩ := decFrame_cases k f
  · omega
  · omega
  · exact hd

/-- Settles O41: the checks on the length leave whole blocks, and the check on the pad count the plaintext's last
byte. -/
theorem decFrameAcceptsByLengthAndLastByteAlone : Obligations.DecFrameAcceptsByLengthAndLastByteAlone := by
  rintro k f chunk p rfl
  constructor
  · intro hok
    obtain ⟨_, hd⟩ | ⟨_, _, hd⟩ | ⟨hlen, hmod, hd⟩ := decFrame_cases k f <;> rw [hd] at hok
    · cases hok
    · cases hok
    · by_cases hn : 1 ≤ padCount (cbcDec k (f.take 16) (f.drop 16)) ∧ padCount (cbcDec k (f.take 16) (f.drop 16)) ≤ 16
      · rw [unpad_of_legal_padCount hn.1 hn.2] at hok
        cases hok
        exact ⟨hlen, hmod, hn.1, hn.2, rfl⟩
      · rw [unpad_of_illegal_padCount hn] at hok
        cases hok
  · rintro ⟨hlen, hmod, h1, h2, rfl⟩
    rw [decFrame_of_blocks hlen hmod, unpad_of_legal_padCount h1 h2]

/-- Settles O13: the frame passes the checks of `DecFrame`, and there is room for its chunk. -/
theorem decAppendsTheChunk : Obligations.DecAppendsTheChunk := by
  rintro s p n hready hlen hmod rfl rfl h1 h2
  refine ⟨?_, ?_⟩
  · rw [cbcDec_length, List.length_drop]; omega
  · exact decIn_of_ready hready (by rw [decFrame_of_blocks hlen hmod]; exact unpad_of_legal_padCount h1 h2)

/-! ## Errors, the sticky error, and holds -/

/-- Settles O15: each clause is the command's equation for the check that fails. -/
theorem commandsRaiseTheirErrorsInOrder : Obligations.CommandsRaiseTheirErrorsInOrder := by
  intro s failWith hfail he
  simp only [hfail]
  refine ⟨execKeyld_of_length_ne he, encIn_of_noKey he, decIn_of_noKey he, fun hk hlen => ?_, fun hk hlen => ?_,
    fun hk hlen hmod hpad => ?_⟩
  · exact decIn_of_decFrame_error he hk (decFrame_of_length_lt hlen)
  · exact decIn_of_decFrame_error he hk (decFrame_of_not_blocks hlen)
  · exact decIn_of_decFrame_error he hk (by rw [decFrame_of_blocks hlen hmod, unpad_of_illegal_padCount hpad])

/-- R243: while an error is recorded every command but CLR is ignored. -/
theorem exec_of_error {i : Instr} {s : State} (he : s.errcode ≠ 0) (hi : i ≠ .clr) : exec i s = .next s.retire := by
  cases i with
  | clr => exact absurd rfl hi
  | keyld | enc | dec => exact unlessError_of_error he _

/-- Settles O17: the word is a command's or reserved, and both test the sticky error first. -/
theorem stickyErrorIgnoresEveryCommandButClr : Obligations.StickyErrorIgnoresEveryCommandButClr := by
  intro s w rest hs he hw
  have hretire : s.retire = { s with script := rest } := by rw [State.retire, hs]; rfl
  rw [step_cmd hs, ← hretire]
  obtain ⟨i, rfl, hc⟩ | ⟨_, hc⟩ := cmd_cases w s
  · rw [hc, exec_of_error he fun hi => hw (congrArg encode hi)]
  · rw [hc, execReserved_of_error he]

/-- Settles O19: both commands end in a hold when their room check fails. -/
theorem withoutRoomEncAndDecHold : Obligations.WithoutRoomEncAndDecHold :=
  fun _ he hk => ⟨encIn_of_noRoom he hk, fun hroom _ hd => decIn_of_noRoom he hk hd hroom⟩

/-- R62: the capacities of this machine are a legal pair. -/
theorem params_obufCap_ge : Config.params.ibufCap + 32 ≤ Config.params.obufCap := by
  show Config.ibufExtra + 32 + 32 ≤ Config.obufExtra + (Config.ibufExtra + 64)
  omega

theorem params_wellFormed : Config.params.wellFormed = true := by
  have hibuf : 32 ≤ Config.params.ibufCap := Nat.le_add_left _ _
  simp [Params.wellFormed, hibuf, params_obufCap_ge]

/-- R62: a full `IBUF` and an empty `OBUF` leave room for a frame. -/
theorem encReady_of_obuf_nil {s : State} (hl : s.ibuf.length ≤ Config.params.ibufCap) (ho : s.obuf = [])
    (he : s.errcode = 0) (hk : s.keyv = true) : EncReady Config.params s := by
  have hframe := frameLen_le_add_thirtyTwo s.ibuf.length
  have hcap := params_obufCap_ge
  exact ⟨he, hk, by rw [ho, List.length_nil]; omega⟩

/-- R62: a full `IBUF` and an empty `OBUF` leave room for a chunk. -/
theorem decReady_of_obuf_nil {s : State} (hl : s.ibuf.length ≤ Config.params.ibufCap) (ho : s.obuf = [])
    (he : s.errcode = 0) (hk : s.keyv = true) : DecReady Config.params s := by
  have hcap := params_obufCap_ge
  exact ⟨he, hk, by rw [ho, List.length_nil]; omega⟩

/-- Settles O20: the legal capacities leave room for either output. -/
theorem anEmptyObufAlwaysHasRoom : Obligations.AnEmptyObufAlwaysHasRoom :=
  ⟨params_wellFormed, fun _ hi ho he hk =>
    ⟨encReady_of_obuf_nil hi.ibuf ho he hk, decReady_of_obuf_nil hi.ibuf ho he hk⟩⟩

end Sys2Proof.Machine
end

section
/-! The draws of the random source and of ENC (R85, R172, R182): O12, O23 and O24. -/

namespace Sys2Proof.Machine

/-- R182: what `Rand(n)` gives is what the source answers. -/
theorem Rng.answers_rand (n : Nat) (r : Rng) : r.Answers (r.rand n).1 (r.rand n).2 := by
  rw [Rng.Answers, Rng.rand_length]

/-- R182: the answers of two draws are those of one draw of both. -/
theorem Rng.Answers.append {r r' r'' : Rng} {bs bs' : Bytes} (h : r.Answers bs r') (h' : r'.Answers bs' r'') :
    r.Answers (bs ++ bs') r'' := by
  unfold Rng.Answers at *
  rw [List.length_append, Rng.rand_add, h, h']

theorem Rng.Answers.drawn {r r' : Rng} {bs : Bytes} (h : r.Answers bs r') : r'.drawn = r.drawn + bs.length := by
  rw [← Rng.rand_drawn, h]

/-- R85: answers that a directive has fixed are given in order. -/
theorem Rng.answers_fixed (bs fs : Bytes) (n : Nat) : Rng.Answers ⟨bs ++ fs, n⟩ bs ⟨fs, n + bs.length⟩ := by
  induction bs generalizing n with
  | nil => rfl
  | cons b bs ih =>
    have hnext : Rng.next ⟨b :: bs ++ fs, n⟩ = (b, ⟨bs ++ fs, n + 1⟩) := rfl
    have hrand := ih (n + 1)
    unfold Rng.Answers at *
    rw [List.length_cons, Rng.rand_succ, hnext, hrand, Nat.add_assoc, Nat.add_comm 1]

/-- Settles O23: `Rand(n)` answers `n` bytes and counts them. -/
theorem everyDrawIsAnswered : Obligations.EveryDrawIsAnswered :=
  fun r n => ⟨_, _, Rng.rand_length n r, Rng.answers_rand n r, Rng.rand_drawn n r⟩

/-- Settles O24: the directive's bytes stand first among the fixed answers. -/
theorem directiveFixesTheNextAnswers : Obligations.DirectiveFixesTheNextAnswers :=
  fun r bs => Rng.answers_fixed bs _ r.drawn

/-- R172, R182: ENC draws an IV and a fill of the lengths the frame wants, and appends the frame made with them. -/
theorem encrypt_eq_frame_of_draws (s : State) :
    ∃ iv fill r, iv.length = 16 ∧ fill.length = padLen s.ibuf.length - 1 ∧ s.rng.Answers (iv ++ fill) r ∧
      encrypt s = { s with obuf := s.obuf ++ encChunk s.key s.ibuf iv fill, ibuf := [], rng := r } :=
  ⟨_, _, _, Rng.rand_length 16 s.rng, Rng.rand_length _ _,
    (Rng.answers_rand 16 s.rng).append (Rng.answers_rand _ _), rfl⟩

/-- R182: the IV's 16 bytes and the fill are counted. -/
theorem drawn_of_enc_draws {r r' : Rng} {iv fill : Bytes} {n : Nat} (hiv : iv.length = 16)
    (hfill : fill.length = padLen n - 1) (h : r.Answers (iv ++ fill) r') : r'.drawn = r.drawn + (15 + padLen n) := by
  have := padLen_pos n
  rw [h.drawn, List.length_append, hiv, hfill]; omega

/-- Settles O12: an ENC that is ready encrypts with its draws. -/
theorem encAppendsTheFrameOfItsDraws : Obligations.EncAppendsTheFrameOfItsDraws := by
  intro s hready
  obtain ⟨iv, fill, r, hiv, hfill, hr, he⟩ := encrypt_eq_frame_of_draws s
  refine ⟨iv, fill, r, hiv, hfill, hr, drawn_of_enc_draws hiv hfill hr, ?_⟩
  rw [exec, execEnc, encIn_of_ready hready, he]
  rfl

end Sys2Proof.Machine
end

section
/-! Decoding, the port operations, and popping all of `OBUF` (R26, R51 to R53, R62, R80 to R85, R270): O1 to O9 and
O21. -/

namespace Sys2Proof.Machine

/-! ## Decoding -/

/-- R80: a sequence decodes to what its first byte decodes to. -/
theorem decode_cons_ok_iff (w : Byte) (tl rest : Bytes) (i : Instr) :
    decode (w :: tl) = .ok (i, rest) ↔ decodeWord w = .ok i ∧ tl = rest := by
  cases hd : decodeWord w <;> simp [decode, hd]

/-- Settles O1: one byte decides, and it is the command's word. -/
theorem decodeAndEncodeAgree : Obligations.DecodeAndEncodeAgree := by
  intro bs rest i _
  cases bs with
  | nil => simp [decode]
  | cons w tl => rw [decode_cons_ok_iff, decodeWord_ok_iff, List.cons.injEq]

/-- Settles O2, from the encoding facts of each command. -/
theorem opcodeMapWordsDecode : Obligations.OpcodeMapWordsDecode := by
  obtain ⟨_, _, hkeyld, hkeyld'⟩ := Laws.Encoding.keyld
  obtain ⟨_, _, henc, henc'⟩ := Laws.Encoding.enc
  obtain ⟨_, _, hdec, hdec'⟩ := Laws.Encoding.dec
  obtain ⟨_, _, hclr, hclr'⟩ := Laws.Encoding.clr
  exact ⟨⟨hkeyld, henc, hdec, hclr⟩, hkeyld', henc', hdec', hclr'⟩

/-- Settles O3: a word that decodes to a command is a defined one, so a reserved word falls through all four tests. -/
theorem reservedWordsAreNoCommand : Obligations.ReservedWordsAreNoCommand := by
  intro w hw
  have hne : ∀ i, w ≠ encode i := by
    rintro i rfl
    rw [commandWordDefined_encode] at hw
    cases hw
  exact (if_neg (hne .keyld)).trans <| (if_neg (hne .enc)).trans <| (if_neg (hne .dec)).trans <| if_neg (hne .clr)

/-! ## Registers (R26, R27, R53) -/

/-- R26: the fields of a `STATUS` word put together from `ERRCODE` and `KEYV`. -/
theorem status_fields : ∀ (e : BitVec 4) (v : Bool),
    let w := (e.setWidth 32 <<< 4) ||| (BitVec.ofBool v).setWidth 32
    w.toNat = v.toNat + 16 * e.toNat ∧ w.getLsbD 0 = v ∧ w.extractLsb' 1 3 = 0 ∧ w.extractLsb' 4 4 = e ∧
      w.extractLsb' 8 24 = 0 := by
  decide

/-- R26: `STATUS` as a number. -/
theorem State.status_toNat (s : State) : s.status.toNat = s.keyv.toNat + 16 * s.errcode.toNat :=
  (status_fields s.errcode s.keyv).1

@[simp] theorem State.register_zero (s : State) : s.register 0 = s.status.toNat := rfl
@[simp] theorem State.register_one (s : State) : s.register 1 = s.ibuf.length := rfl
@[simp] theorem State.register_two (s : State) : s.register 2 = s.obuf.length := rfl

/-- R86: the reserved registers read as 0. -/
theorem State.register_reserved (s : State) {n : BitVec 4} (h : 3 ≤ n.toNat) : s.register n = 0 := by
  have hne : n ≠ 0 ∧ n ≠ 1 ∧ n ≠ 2 := by
    refine ⟨?_, ?_, ?_⟩ <;> rintro rfl <;> exact absurd h (by decide)
  rw [register, if_neg hne.1, if_neg hne.2.1, if_neg hne.2.2]

/-- Settles O7: the fields of the word `STATUS` is put together as. -/
theorem statusIsKeyvPlusSixteenErrcode : Obligations.StatusIsKeyvPlusSixteenErrcode :=
  ⟨fun s => ⟨s.register_zero, status_fields s.errcode s.keyv⟩, rfl⟩

/-! ## Port operations -/

variable {s : State} {rest : List HostItem}

/-- The operation at the head of the script has been taken off it. -/
theorem State.retire_eq {item : HostItem} (h : s.script = item :: rest) : s.retire = { s with script := rest } := by
  rw [State.retire, h]
  rfl

theorem step_push_of_lt {b : Byte} (hs : s.script = .op (.push b) :: rest) (h : s.ibuf.length < Config.params.ibufCap) :
    step s = .next { s with ibuf := s.ibuf ++ [b], script := rest } := by
  rw [step_push hs, push, pushIn_of_lt h, State.retire_eq (by exact hs)]

theorem step_pop_of_cons {b : Byte} {bs : Bytes} (hs : s.script = .op .pop :: rest) (h : s.obuf = b :: bs) :
    step s = .next { s with obuf := bs, received := s.received ++ [.byte b], script := rest } := by
  rw [step_pop hs, pop_of_cons h, State.retire_eq (by exact hs)]
  rfl

/-- Settles O4: the two ends of PUSH. -/
theorem pushAppendsOneByteOrHolds : Obligations.PushAppendsOneByteOrHolds :=
  fun _ _ _ hs => ⟨step_push_of_lt hs, fun h => (step_push hs).trans (pushIn_of_le h.ge)⟩

/-- Settles O5: the two ends of POP. -/
theorem popReturnsTheHeadByteOrHolds : Obligations.PopReturnsTheHeadByteOrHolds :=
  fun _ _ hs => ⟨fun _ _ h => step_pop_of_cons hs h, fun h => (step_pop hs).trans (pop_of_nil h)⟩

/-- Settles O6: the one end of RDREG, and the registers by number. -/
theorem rdregReturnsRegisterAndChangesNothing : Obligations.RdregReturnsRegisterAndChangesNothing := by
  intro s n rest hs
  refine ⟨?_, fun h => ?_, fun h => ?_, fun h => ?_, s.register_reserved⟩
  · rw [step_rdreg hs, rdreg_eq, State.retire_eq (by exact hs)]
    rfl
  · rw [h, s.register_zero]
  · rw [h, s.register_one]
  · rw [h, s.register_two]

/-- Settles O8: the one end of RESET. -/
theorem resetClearsTheEngineInEveryState : Obligations.ResetClearsTheEngineInEveryState := by
  intro s rest hs
  refine ⟨_, (step_reset hs).trans (reset_eq s), ⟨rfl, rfl, rfl, rfl, rfl⟩, rfl, rfl, ?_⟩
  rw [State.retire_script, State.cleared_script, hs, List.tail_cons]

/-! ## Popping all of OBUF -/

/-- R52: as many POPs as `OBUF` has bytes return them all in order. -/
theorem runSteps_pops (hs : s.script = List.replicate s.obuf.length (.op .pop) ++ rest) :
    runSteps s.obuf.length s =
      .next { s with obuf := [], script := rest, received := s.received ++ s.obuf.map .byte } := by
  generalize ho : s.obuf = bs at hs
  induction bs generalizing s with
  | nil =>
    rw [List.map_nil, List.append_nil]
    exact congrArg Host.Outcome.next (State.ext rfl rfl rfl rfl ho rfl hs rfl)
  | cons b bs ih =>
    rw [List.length_cons, runSteps_succ _ (step_pop_of_cons hs ho), ih rfl rfl]
    simp

/-- Settles O9: after the count has been read the POPs return all of `OBUF`. -/
theorem drainReturnsAllOfObuf : Obligations.DrainReturnsAllOfObuf := by
  intro s rest hs
  have hstep : step s = .next { s with
      script := List.replicate s.obuf.length (.op .pop) ++ rest,
      received := s.received ++ [.word s.obuf.length] } := by
    rw [step_drain hs, drain, State.register_two, hs]
    rfl
  have hpops := runSteps_pops (rest := rest) (s := { s with
    script := List.replicate s.obuf.length (.op .pop) ++ rest,
    received := s.received ++ [.word s.obuf.length] }) rfl
  rw [runSteps_succ _ hstep, hpops, List.append_assoc]
  rfl

/-- Settles O21: the POPs leave an empty `OBUF`, which has room for any frame. -/
theorem poppingMakesRoomForEnc : Obligations.PoppingMakesRoomForEnc := by
  intro s rest hi he hk hs
  obtain ⟨iv, fill, r, hiv, hfill, hr, henc⟩ := encrypt_eq_frame_of_draws
    { s with obuf := [], script := .op (.cmd 0x02) :: rest, received := s.received ++ s.obuf.map .byte }
  refine ⟨iv, fill, r, hiv, hfill, hr, drawn_of_enc_draws hiv hfill hr, encChunk_length _ hiv hfill, ?_⟩
  rw [runSteps_add _ 1 (runSteps_pops hs)]
  have hstep : step { s with
      obuf := [], script := .op (.cmd 0x02) :: rest, received := s.received ++ s.obuf.map .byte } = _ :=
    (step_cmd rfl).trans ((cmd_encode .enc _).trans (encIn_of_ready (encReady_of_obuf_nil hi.ibuf rfl he hk)))
  rw [runSteps_succ _ hstep, henc]
  rfl

end Sys2Proof.Machine
end

section
/-! Multiplication in GF(2^8) (R101) and the S-box (R102, R103): O31, O32 and O33. -/

namespace Sys2Proof.Machine

/-! ## Bytes as exclusive ors of their bits' terms -/

/-- The exclusive or, over the bits `i` of `c` that are 1, of `f i`: how `gmul` is put together from its terms. -/
def xorBits (c : Byte) (f : Nat → Byte) : Byte :=
  (if c.getLsbD 0 then f 0 else 0) ^^^ (if c.getLsbD 1 then f 1 else 0) ^^^ (if c.getLsbD 2 then f 2 else 0) ^^^
    (if c.getLsbD 3 then f 3 else 0) ^^^ (if c.getLsbD 4 then f 4 else 0) ^^^ (if c.getLsbD 5 then f 5 else 0) ^^^
    (if c.getLsbD 6 then f 6 else 0) ^^^ (if c.getLsbD 7 then f 7 else 0)

theorem gmul_eq_xorBits (a b : Byte) : gmul a b = xorBits b fun i => xtimes i a := rfl

/-- A map of bytes that respects exclusive or. -/
structure XorLinear (F : Byte → Byte) : Prop where
  zero : F 0 = 0
  xor : ∀ a b, F (a ^^^ b) = F a ^^^ F b

theorem XorLinear.ite {F : Byte → Byte} (h : XorLinear F) (c : Bool) (a : Byte) :
    F (if c then a else 0) = if c then F a else 0 := by
  cases c
  · exact h.zero
  · rfl

/-- A linear map goes through to the terms. -/
theorem XorLinear.map_xorBits {F : Byte → Byte} (h : XorLinear F) (c : Byte) (f : Nat → Byte) :
    F (xorBits c f) = xorBits c fun i => F (f i) := by
  simp only [xorBits, h.xor, h.ite]

/-- One term is additive in the bit that selects it. -/
theorem ite_xor (p q : Bool) (a : Byte) :
    (if p ^^ q then a else 0) = (if p then a else 0) ^^^ (if q then a else 0) := by
  cases p <;> cases q <;> simp

theorem xorBits_xor_left (c d : Byte) (f : Nat → Byte) : xorBits (c ^^^ d) f = xorBits c f ^^^ xorBits d f := by
  simp only [xorBits, BitVec.getLsbD_xor, ite_xor]
  ac_rfl

/-- One term is additive in its value. -/
theorem ite_xor_right (p : Bool) (a b : Byte) :
    (if p then a ^^^ b else 0) = (if p then a else 0) ^^^ (if p then b else 0) := by
  cases p <;> simp

theorem xorBits_xor_right (c : Byte) (f g : Nat → Byte) :
    (xorBits c fun i => f i ^^^ g i) = xorBits c f ^^^ xorBits c g := by
  simp only [xorBits, ite_xor_right]
  ac_rfl

theorem xorBits_zero_left (f : Nat → Byte) : xorBits 0 f = 0 := by simp [xorBits]

theorem xorBits_zero_right (c : Byte) : (xorBits c fun _ => 0) = 0 := by simp [xorBits]

/-! ## `xtime` and `gmul` are linear -/

theorem xorLinear_xtime : XorLinear xtime where
  zero := by decide
  xor a b := by
    rw [xtime, xtime, xtime, BitVec.shiftLeft_xor_distrib, BitVec.getLsbD_xor, ite_xor]
    ac_rfl

theorem xorLinear_xtimes (n : Nat) : XorLinear (xtimes n) := by
  induction n with
  | zero => exact ⟨rfl, fun _ _ => rfl⟩
  | succ n ih =>
    exact ⟨by rw [xtimes, ih.zero, xorLinear_xtime.zero],
      fun a b => by rw [xtimes, ih.xor, xorLinear_xtime.xor]; rfl⟩

theorem xtimes_xtime (n : Nat) (a : Byte) : xtimes n (xtime a) = xtime (xtimes n a) := by
  induction n with
  | zero => rfl
  | succ n ih => rw [xtimes, ih, xtimes]

theorem xorLinear_gmul_left (b : Byte) : XorLinear (gmul · b) where
  zero := by
    have hterm : (fun i => xtimes i 0) = fun _ => 0 := funext fun i => (xorLinear_xtimes i).zero
    show gmul 0 b = 0
    rw [gmul_eq_xorBits, hterm, xorBits_zero_right]
  xor a c := by
    have hterm : (fun i => xtimes i (a ^^^ c)) = fun i => xtimes i a ^^^ xtimes i c :=
      funext fun i => (xorLinear_xtimes i).xor a c
    show gmul (a ^^^ c) b = gmul a b ^^^ gmul c b
    rw [gmul_eq_xorBits, hterm, xorBits_xor_right]
    rfl

theorem xorLinear_gmul_right (a : Byte) : XorLinear (gmul a) where
  zero := by rw [gmul_eq_xorBits, xorBits_zero_left]
  xor b c := by simp only [gmul_eq_xorBits, xorBits_xor_left]

/-- R101: multiplying a product by `x` multiplies its first factor by `x`. -/
theorem gmul_xtime_left (a b : Byte) : gmul (xtime a) b = xtime (gmul a b) := by
  simp only [gmul_eq_xorBits, xtimes_xtime, xorLinear_xtime.map_xorBits]

theorem gmul_xtimes_left (n : Nat) (a b : Byte) : gmul (xtimes n a) b = xtimes n (gmul a b) := by
  induction n with
  | zero => rfl
  | succ n ih => rw [xtimes, gmul_xtime_left, ih, xtimes]

/-! ## The laws of the field -/

/-- R101: a byte is the exclusive or of the powers of `x` its bits stand for. -/
theorem gmul_one_left : ∀ a, gmul 1 a = a := by decide

/-- R101: both factors are exclusive ors of powers of `x`, and powers of `x` may be taken out of either. -/
theorem gmul_comm (a b : Byte) : gmul a b = gmul b a := by
  calc gmul a b = gmul (xorBits a fun i => xtimes i 1) b := by rw [← gmul_eq_xorBits, gmul_one_left]
    _ = xorBits a fun i => gmul (xtimes i 1) b := (xorLinear_gmul_left b).map_xorBits a _
    _ = gmul b a := by simp only [gmul_xtimes_left, gmul_one_left, gmul_eq_xorBits b a]

theorem gmul_xtimes_right (n : Nat) (a b : Byte) : gmul a (xtimes n b) = xtimes n (gmul a b) := by
  rw [gmul_comm, gmul_xtimes_left, gmul_comm]

theorem gmul_assoc (a b c : Byte) : gmul (gmul a b) c = gmul a (gmul b c) := by
  simp only [gmul_eq_xorBits _ c, (xorLinear_gmul_right a).map_xorBits, gmul_xtimes_right]

theorem gmul_xor_left (a b c : Byte) : gmul (a ^^^ b) c = gmul a c ^^^ gmul b c := (xorLinear_gmul_left c).xor a b

theorem gmul_xor_right (a b c : Byte) : gmul a (b ^^^ c) = gmul a b ^^^ gmul a c := (xorLinear_gmul_right a).xor b c

@[simp] theorem gmul_one_right (a : Byte) : gmul a 1 = a := (gmul_comm a 1).trans (gmul_one_left a)

@[simp] theorem gmul_zero_right (a : Byte) : gmul a 0 = 0 := (xorLinear_gmul_right a).zero

theorem gmul_zero_left (a : Byte) : gmul 0 a = 0 := (xorLinear_gmul_left a).zero

/-! ## The inverse, read off the S-box -/

/-- R102: the affine map of the S-box. -/
def sboxAffine (b : Byte) : Byte :=
  b ^^^ b.rotateLeft 1 ^^^ b.rotateLeft 2 ^^^ b.rotateLeft 3 ^^^ b.rotateLeft 4 ^^^ 0x63

/-- The multiplicative inverse of a byte: the inverse of R102's affine map, on the S-box. -/
def ginv (a : Byte) : Byte :=
  (sbox a).rotateLeft 1 ^^^ (sbox a).rotateLeft 3 ^^^ (sbox a).rotateLeft 6 ^^^ 0x05

theorem gmul_ginv : ∀ a, a ≠ 0 → gmul a (ginv a) = 1 := by decide +kernel

theorem sboxAffine_ginv : ∀ a, sboxAffine (ginv a) = sbox a := by decide +kernel

/-- R101: a byte with an inverse has only one. -/
theorem eq_ginv_of_gmul_eq_one {a b : Byte} (h : gmul a b = 1) : b = ginv a := by
  have ha : a ≠ 0 := by
    rintro rfl
    rw [gmul_zero_left] at h
    exact absurd h (by decide)
  calc b = gmul b (gmul a (ginv a)) := by rw [gmul_ginv a ha, gmul_one_right]
    _ = gmul (gmul a b) (ginv a) := by rw [← gmul_assoc, gmul_comm b a]
    _ = ginv a := by rw [h, gmul_one_left]

/-- Settles O31, law by law. -/
theorem gmulIsAFieldMultiplication : Obligations.GmulIsAFieldMultiplication :=
  ⟨gmul_comm, gmul_assoc, gmul_xor_right, fun a => ⟨gmul_one_right a, gmul_zero_right a⟩,
    fun a ha => ⟨ginv a, gmul_ginv a ha, fun _ => eq_ginv_of_gmul_eq_one⟩⟩

/-- Settles O32: the inverse is the one read off the S-box, and 0 stands for its own. -/
theorem sboxIsTheAffineImageOfTheInverse : Obligations.SboxIsTheAffineImageOfTheInverse := by
  intro a b h
  have hb : b = ginv a := by
    obtain h | ⟨rfl, rfl⟩ := h
    · exact eq_ginv_of_gmul_eq_one h
    · decide
  exact hb ▸ (sboxAffine_ginv a).symm

theorem invSbox_sbox : ∀ a, invSbox (sbox a) = a := by decide +kernel

theorem sbox_invSbox : ∀ a, sbox (invSbox a) = a := by decide +kernel

/-- Settles O33: the two tables, looked up in each other. -/
theorem invSboxInvertsSbox : Obligations.InvSboxInvertsSbox := fun a => ⟨invSbox_sbox a, sbox_invSbox a⟩

end Sys2Proof.Machine
end

section
/-! The block cipher and its inverse (R106 to R116): O34, O35 and O36. -/

namespace Sys2Proof.Machine

/-! ## MixColumns as a matrix -/

/-- The product of a row and a column over GF(2^8). -/
def Col.dot (a w : Col) : Byte := gmul a.r0 w.r0 ^^^ gmul a.r1 w.r1 ^^^ gmul a.r2 w.r2 ^^^ gmul a.r3 w.r3

/-- The product of a matrix, given by its rows, and a column. -/
def matMul (m : Block) (a : Col) : Col := ⟨a.dot m.c0, a.dot m.c1, a.dot m.c2, a.dot m.c3⟩

/-- The product of a row and a matrix, given by its rows. -/
def rowMul (w : Col) (m : Block) : Col where
  r0 := gmul m.c0.r0 w.r0 ^^^ gmul m.c1.r0 w.r1 ^^^ gmul m.c2.r0 w.r2 ^^^ gmul m.c3.r0 w.r3
  r1 := gmul m.c0.r1 w.r0 ^^^ gmul m.c1.r1 w.r1 ^^^ gmul m.c2.r1 w.r2 ^^^ gmul m.c3.r1 w.r3
  r2 := gmul m.c0.r2 w.r0 ^^^ gmul m.c1.r2 w.r1 ^^^ gmul m.c2.r2 w.r2 ^^^ gmul m.c3.r2 w.r3
  r3 := gmul m.c0.r3 w.r0 ^^^ gmul m.c1.r3 w.r1 ^^^ gmul m.c2.r3 w.r2 ^^^ gmul m.c3.r3 w.r3

/-- A row times a matrix times a column, either product first. -/
theorem dot_matMul (m : Block) (a w : Col) : (matMul m a).dot w = a.dot (rowMul w m) := by
  simp only [matMul, rowMul, Col.dot, gmul_xor_left, gmul_xor_right, gmul_assoc]
  ac_rfl

/-- R110: the matrix of `MixColumns`. -/
def mixRows : Block := ⟨⟨2, 3, 1, 1⟩, ⟨1, 2, 3, 1⟩, ⟨1, 1, 2, 3⟩, ⟨3, 1, 1, 2⟩⟩

/-- R110: the matrix of `InvMixColumns`. -/
def invMixRows : Block := ⟨⟨14, 11, 13, 9⟩, ⟨9, 14, 11, 13⟩, ⟨13, 9, 14, 11⟩, ⟨11, 13, 9, 14⟩⟩

/-- The identity matrix. -/
def unitRows : Block := ⟨⟨1, 0, 0, 0⟩, ⟨0, 1, 0, 0⟩, ⟨0, 0, 1, 0⟩, ⟨0, 0, 0, 1⟩⟩

theorem mixColumn_eq_matMul (a : Col) : mixColumn a = matMul mixRows a := by
  simp only [mixColumn, matMul, mixRows, Col.dot, gmul_one_right]

theorem invMixColumn_eq_matMul (a : Col) : invMixColumn a = matMul invMixRows a := rfl

theorem matMul_unitRows (a : Col) : matMul unitRows a = a := by
  simp only [matMul, unitRows, Col.dot, gmul_one_right, gmul_zero_right]
  simp

/-- Two matrices whose product is the identity undo each other. -/
theorem matMul_matMul_of_rowMul {m n : Block}
    (h : (⟨rowMul n.c0 m, rowMul n.c1 m, rowMul n.c2 m, rowMul n.c3 m⟩ : Block) = unitRows) (a : Col) :
    matMul n (matMul m a) = a := by
  rw [matMul, dot_matMul, dot_matMul, dot_matMul, dot_matMul]
  exact (congrArg (matMul · a) h).trans (matMul_unitRows a)

theorem invMixColumn_mixColumn (a : Col) : invMixColumn (mixColumn a) = a := by
  rw [mixColumn_eq_matMul, invMixColumn_eq_matMul, matMul_matMul_of_rowMul (by decide)]

theorem mixColumn_invMixColumn (a : Col) : mixColumn (invMixColumn a) = a := by
  rw [mixColumn_eq_matMul, invMixColumn_eq_matMul, matMul_matMul_of_rowMul (by decide)]

@[simp] theorem invMixColumns_mixColumns (s : Block) : invMixColumns (mixColumns s) = s := by
  simp [invMixColumns, mixColumns, invMixColumn_mixColumn]

@[simp] theorem mixColumns_invMixColumns (s : Block) : mixColumns (invMixColumns s) = s := by
  simp [invMixColumns, mixColumns, mixColumn_invMixColumn]

/-- Settles O35: the two matrices are inverse. -/
theorem invMixColumnsInvertsMixColumns : Obligations.InvMixColumnsInvertsMixColumns :=
  fun s => ⟨invMixColumns_mixColumns s, mixColumns_invMixColumns s⟩

/-! ## The rounds undo one another -/

@[simp] theorem invSubBytes_subBytes (s : Block) : invSubBytes (subBytes s) = s :=
  Block.map_map_of_inverse invSbox_sbox s

@[simp] theorem subBytes_invSubBytes (s : Block) : subBytes (invSubBytes s) = s :=
  Block.map_map_of_inverse sbox_invSbox s

/-- R111, R115: an inverse round undoes a round where both stand behind `SubBytes` and `ShiftRows`. -/
theorem decRound_encRound (s k : Block) :
    decRound (shiftRows (subBytes (encRound s k))) k = shiftRows (subBytes s) := by
  simp [decRound, encRound]

/-- R111, R115: a round undoes an inverse round where both stand behind `InvShiftRows` and `InvSubBytes`. -/
theorem encRound_decRound (s k : Block) :
    encRound (invSubBytes (invShiftRows (decRound s k))) k = invSubBytes (invShiftRows s) := by
  simp [decRound, encRound]

/-- Rounds undone one by one, the last first, where each is undone behind `φ`. -/
theorem foldl_reverse_foldl {α : Type} {f g : Block → α → Block} {φ : Block → Block}
    (h : ∀ s r, g (φ (f s r)) r = φ s) (rs : List α) (s : Block) : rs.reverse.foldl g (φ (rs.foldl f s)) = φ s := by
  induction rs generalizing s with
  | nil => rfl
  | cons r rs ih => rw [List.foldl_cons, List.reverse_cons, List.foldl_append, ih, List.foldl_cons, List.foldl_nil, h]

theorem aesDecWith_aesEncWith (rks : List Block) (b : Block) : aesDecWith rks (aesEncWith rks b) = b := by
  have hrounds := foldl_reverse_foldl
    (f := fun s r => encRound s (rkAt rks r)) (g := fun s r => decRound s (rkAt rks r))
    (φ := fun s => shiftRows (subBytes s)) (fun s r => decRound_encRound s (rkAt rks r)) (List.range' 1 13)
    (addRoundKey b (rkAt rks 0))
  simp only [aesDecWith, aesEncWith, addRoundKey_addRoundKey, hrounds, invShiftRows_shiftRows, invSubBytes_subBytes]

theorem aesEncWith_aesDecWith (rks : List Block) (b : Block) : aesEncWith rks (aesDecWith rks b) = b := by
  have hrounds := foldl_reverse_foldl
    (f := fun s r => decRound s (rkAt rks r)) (g := fun s r => encRound s (rkAt rks r))
    (φ := fun s => invSubBytes (invShiftRows s)) (fun s r => encRound_decRound s (rkAt rks r))
    (List.range' 1 13).reverse (addRoundKey b (rkAt rks 14))
  rw [List.reverse_reverse] at hrounds
  simp only [aesDecWith, aesEncWith, addRoundKey_addRoundKey, hrounds, subBytes_invSubBytes, shiftRows_invShiftRows]

/-- Settles O36: the rounds undo one another under any round keys. -/
theorem aesDecryptionInvertsEncryption : Obligations.AesDecryptionInvertsEncryption :=
  fun _ b => ⟨aesDecWith_aesEncWith _ b, aesEncWith_aesDecWith _ b⟩

/-! ## The key schedule -/

/-- R106: from the ninth word on, each word of `ws` is the one of the schedule's recurrence. -/
def FollowsRecurrence (ws : List Col) : Prop :=
  ∀ i, 8 ≤ i → i < ws.length → ∃ w1 w8, ws[i - 1]? = some w1 ∧ ws[i - 8]? = some w8 ∧
    ws[i]? = some (w8.xor (scheduleCore i w1))

/-- R106: the recurrence makes one more word. -/
theorem FollowsRecurrence.concat {ws : List Col} (h : FollowsRecurrence ws) {w1 w8 : Col}
    (h1 : ws[ws.length - 1]? = some w1) (h8 : ws[ws.length - 8]? = some w8) :
    FollowsRecurrence (ws ++ [w8.xor (scheduleCore ws.length w1)]) := by
  intro i hi hlt
  rw [List.length_append, List.length_singleton] at hlt
  obtain hlt | rfl := Nat.lt_succ_iff_lt_or_eq.mp hlt
  · obtain ⟨w1', w8', e1, e8, e⟩ := h i hi hlt
    exact ⟨w1', w8', by rw [List.getElem?_append_left (by omega), e1],
      by rw [List.getElem?_append_left (by omega), e8], by rw [List.getElem?_append_left hlt, e]⟩
  · exact ⟨w1, w8, by rw [List.getElem?_append_left (by omega), h1],
      by rw [List.getElem?_append_left (by omega), h8], by rw [List.getElem?_concat_length]⟩

/-- R106: the loop, in the words' own order, appends as many words as it is asked for and follows the recurrence. -/
theorem expandWords_reverse (n : Nat) (ws : List Col) (hlen : 8 ≤ ws.length) (h : FollowsRecurrence ws) :
    ∃ more, (expandWords n ws.length ws.reverse).reverse = ws ++ more ∧ more.length = n ∧
      FollowsRecurrence (ws ++ more) := by
  induction n generalizing ws with
  | zero => exact ⟨[], by simp [expandWords], rfl, by rwa [List.append_nil]⟩
  | succ n ih =>
    obtain ⟨w1, h1⟩ : ∃ w, ws[ws.length - 1]? = some w := ⟨_, List.getElem?_eq_getElem (by omega)⟩
    obtain ⟨w8, h8⟩ : ∃ w, ws[ws.length - 8]? = some w := ⟨_, List.getElem?_eq_getElem (by omega)⟩
    have hnew : expandWords (n + 1) ws.length ws.reverse =
        expandWords n (ws ++ [w8.xor (scheduleCore ws.length w1)]).length
          (ws ++ [w8.xor (scheduleCore ws.length w1)]).reverse := by
      rw [expandWords, List.getD_eq_getElem?_getD, List.getD_eq_getElem?_getD, List.getElem?_reverse (by omega),
        List.getElem?_reverse (by omega), Nat.sub_zero, h1, show ws.length - 1 - 7 = ws.length - 8 by omega, h8]
      simp
    obtain ⟨more, hmore, hn, hrec⟩ := ih _ (by simp; omega) (h.concat h1 h8)
    exact ⟨w8.xor (scheduleCore ws.length w1) :: more, by rw [hnew, hmore, List.append_assoc, List.singleton_append],
      by rw [List.length_cons, hn], by rwa [List.append_cons]⟩

/-- R106: the key's own words, by index. -/
theorem keyWords_getElem? (k : Key) {i : Nat} (h : i < 8) : (keyWords k)[i]? = some (Col.ofBytes k.toList (4 * i)) := by
  unfold keyWords
  interval_cases i <;> rfl

/-- Settles O34: the schedule is the key's eight words with the 52 that the loop appends. -/
theorem keyExpansionFollowsItsRecurrence : Obligations.KeyExpansionFollowsItsRecurrence := by
  intro k
  have hlen : (keyWords k).length = 8 := rfl
  obtain ⟨more, hmore, hn, hrec⟩ := expandWords_reverse 52 (keyWords k) hlen.ge fun i hi hlt => by omega
  have hk : keyExpansion k = keyWords k ++ more := hmore
  have h60 : (keyWords k ++ more).length = 60 := by rw [List.length_append, hlen, hn]
  rw [hk]
  refine ⟨h60, fun i hi => ?_, fun i hi hlt => hrec i hi (by omega)⟩
  rw [List.getElem?_append_left (by omega), keyWords_getElem? k hi]

end Sys2Proof.Machine
end

section
/-! Padding, CBC and frames undone (R143, R147, R149, R150): O38, O39, O42, O43 and O44. -/

namespace Sys2Proof.Machine

/-! ## Padding -/

/-- R147: the pad count of a padded chunk is its `PadLen`. -/
theorem padCount_pad (chunk fill : Bytes) : padCount (pad chunk fill) = padLen chunk.length := by
  have hle := padLen_le chunk.length
  have hlast : (pad chunk fill).getD ((pad chunk fill).length - 1) 0 = BitVec.ofNat 8 (padLen chunk.length) := by
    rw [pad, List.length_append, List.length_singleton, Nat.add_sub_cancel, List.getD_append_right _ _ _ _ le_rfl,
      Nat.sub_self, List.getD_cons_zero]
  rw [padCount, hlast, BitVec.toNat_ofNat, Nat.mod_eq_of_lt (by omega)]

variable {chunk fill : Bytes}

theorem unpad_pad (h : fill.length = padLen chunk.length - 1) : unpad (pad chunk fill) = .ok chunk := by
  have hcount := padCount_pad chunk fill
  rw [unpad_of_legal_padCount (hcount ▸ padLen_pos _) (hcount ▸ padLen_le _), hcount, pad_length h,
    Nat.add_sub_cancel, pad, List.append_assoc, List.take_left]

/-- Settles O38: the last byte is the chunk's `PadLen`, and that many bytes are taken off. -/
theorem unpadRemovesThePadding : Obligations.UnpadRemovesThePadding := fun _ _ => unpad_pad

/-! ## CBC -/

theorem cbcDecBlocks_cbcEncBlocks (rks : List Block) (cv : Block) (xs : List Block) :
    cbcDecBlocks rks cv (cbcEncBlocks rks cv xs) = xs := by
  induction xs generalizing cv with
  | nil => rfl
  | cons x xs ih => rw [cbcEncBlocks, cbcDecBlocks, ih, aesDecWith_aesEncWith, Block.xor_xor]

theorem cbcDec_cbcEnc (k : Key) (iv : Bytes) {p : Bytes} (h : p.length % 16 = 0) : cbcDec k iv (cbcEnc k iv p) = p := by
  have hcount : (cbcEnc k iv p).length / 16 =
      (cbcEncBlocks (roundKeys k) (.ofBytes iv) (toBlocks (p.length / 16) p)).length := by
    rw [cbcEnc_length, Nat.mul_div_cancel_left _ (by decide), cbcEncBlocks_length, toBlocks_length]
  rw [cbcDec, hcount, cbcEnc, toBlocks_blocksToBytes, cbcDecBlocks_cbcEncBlocks, blocksToBytes_toBlocks (by omega)]

/-- Settles O39: block by block, with the same chaining values. -/
theorem cbcDecryptionInvertsEncryption : Obligations.CbcDecryptionInvertsEncryption :=
  fun k iv _ _ => cbcDec_cbcEnc k iv

/-! ## Frames -/

variable {iv : Bytes} (k : Key)

/-- R149: the ciphertext of a frame decrypts to the padded chunk. -/
theorem cbcDec_cbcEnc_pad (h : fill.length = padLen chunk.length - 1) :
    cbcDec k iv (cbcEnc k iv (pad chunk fill)) = pad chunk fill :=
  cbcDec_cbcEnc k iv (by rw [pad_length_eq_blocks h, Nat.mul_mod_right])

theorem decFrame_encChunk (hiv : iv.length = 16) (hfill : fill.length = padLen chunk.length - 1) :
    decFrame k (encChunk k chunk iv fill) = .ok chunk := by
  have hlen : (encChunk k chunk iv fill).length = 16 + 16 * (chunk.length / 16 + 1) := by
    rw [encChunk_length k hiv hfill, frameLen_eq_iv_add_blocks]
  rw [decFrame_of_blocks (by omega) (by omega), encChunk_take k chunk hiv, encChunk_drop k chunk hiv,
    cbcDec_cbcEnc_pad k hfill, unpad_pad hfill]

/-- Settles O42: the frame's two parts decrypt to the padded chunk. -/
theorem decFrameRecoversTheChunk : Obligations.DecFrameRecoversTheChunk := fun k _ _ _ => decFrame_encChunk k

/-- R150: a frame's IV stands in it, and its plaintext, recovered, shows the fill. -/
theorem encChunk_injective {iv' fill' : Bytes} (hiv : iv.length = 16) (hiv' : iv'.length = 16)
    (hfill : fill.length = padLen chunk.length - 1) (hfill' : fill'.length = padLen chunk.length - 1)
    (h : encChunk k chunk iv fill = encChunk k chunk iv' fill') : iv = iv' ∧ fill = fill' := by
  obtain rfl : iv = iv' := by rw [← encChunk_take k chunk hiv, h, encChunk_take k chunk hiv']
  have hcipher : cbcEnc k iv (pad chunk fill) = cbcEnc k iv (pad chunk fill') := List.append_cancel_left h
  have hpad : pad chunk fill = pad chunk fill' := by
    rw [← cbcDec_cbcEnc_pad k hfill, hcipher, cbcDec_cbcEnc_pad k hfill']
  exact ⟨rfl, List.append_cancel_left (List.append_cancel_right hpad)⟩

/-- Settles O43: the frame shows the IV and, decrypted, the fill. -/
theorem differentDrawsGiveDifferentFrames : Obligations.DifferentDrawsGiveDifferentFrames :=
  fun k _ _ _ _ _ => encChunk_injective k

/-- Settles O44: what the ENC appended is the frame of its draws, and that decrypts to the chunk. -/
theorem decOfAnEncFrameReturnsTheChunk : Obligations.DecOfAnEncFrameReturnsTheChunk := by
  intro s t u hs ht hu hk hf
  obtain ⟨iv, fill, r, hiv, hfill, _, henc⟩ := encrypt_eq_frame_of_draws s
  have hout : t = (encrypt s).retire := Host.Outcome.next.inj (ht.symm.trans (encIn_of_ready hs))
  have hframe : u.ibuf = encChunk s.key s.ibuf iv fill := by
    rw [hf, hout, henc]
    exact List.drop_left
  exact decIn_of_ready hu (by rw [hk, hframe, decFrame_encChunk _ hiv hfill])

end Sys2Proof.Machine
end

section
/-! The key deriver, the lengths of text blocks, and the splitter (R202 to R209): O45, O46, O48 and O49. -/

namespace Sys2Proof.Machine

/-! ## Derive -/

theorem derive_of_short {pw : Text} (ha : asciiOnly pw = true) (h : pw.length < 6) :
    derive pw = .error (.failed .invalidPassword) := by
  rw [derive, if_neg (by rw [ha]; decide), if_pos h]

theorem derive_of_not_ascii {pw : Text} (ha : asciiOnly pw = false) :
    derive pw = .error (.refused .passwordOutsideAscii) := if_pos ha

theorem derive_of_long {pw : Text} (ha : asciiOnly pw = true) (h : 6 ≤ pw.length) :
    derive pw = .ok (Key.ofBytes ((stretch 32 pw).map (BitVec.ofNat 8))) := by
  rw [derive, if_neg (by rw [ha]; decide), if_neg (not_lt.mpr h)]

/-- Settles O46: the two checks, in their order. -/
theorem deriveRejectsShortAndNonAsciiPasswords : Obligations.DeriveRejectsShortAndNonAsciiPasswords :=
  fun _ => ⟨derive_of_short, derive_of_not_ascii⟩

/-- R202: the letters appended stand at their own index, up to 32 characters. -/
theorem stretch_eq_append (fuel : Nat) (pw : Text) (h : 32 ≤ pw.length + fuel) :
    stretch fuel pw = pw ++ (List.range' pw.length (32 - pw.length)).map fun j => alpha (stretchIndex j) := by
  induction fuel generalizing pw with
  | zero => rw [stretch, Nat.sub_eq_zero_of_le (by exact h)]; simp
  | succ fuel ih =>
    rw [stretch]
    split_ifs with hlt
    · have hlen : (pw ++ [alpha (stretchIndex pw.length)]).length = pw.length + 1 := by simp
      obtain ⟨m, hm⟩ : ∃ m, 32 - pw.length = m + 1 := ⟨31 - pw.length, by omega⟩
      rw [ih _ (by omega), hlen, hm, show 32 - (pw.length + 1) = m by omega, List.range'_succ, List.map_cons,
        List.append_assoc, List.singleton_append]
    · rw [Nat.sub_eq_zero_of_le (not_lt.mp hlt)]; simp

theorem stretch_length (pw : Text) : (stretch 32 pw).length = pw.length + (32 - pw.length) := by
  rw [stretch_eq_append 32 pw (by omega), List.length_append, List.length_map, List.length_range']

/-- R204: the stretched password, character by character. -/
theorem stretch_getElem? {pw : Text} {j : Nat} (h : j < 32) :
    (stretch 32 pw)[j]? = some (if j < pw.length then pw.getD j 0 else alpha (20 * j % 32)) := by
  rw [stretch_eq_append 32 pw (by omega)]
  split_ifs with hj
  · rw [List.getElem?_append_left hj, List.getD_eq_getElem?_getD, List.getElem?_eq_getElem hj, Option.getD_some]
  · have hindex : stretchIndex j = 20 * j % 32 := by unfold stretchIndex Config.alphaLen Config.stretchMod; omega
    rw [List.getElem?_append_right (by omega), List.getElem?_map, List.getElem?_range' (by omega), Option.map_some,
      show pw.length + 1 * (j - pw.length) = j by omega, hindex]

/-- R171, R202: the bytes of a key are the first 32 of the sequence it is loaded from. -/
theorem Key.getElem_ofBytes {s : Bytes} (hs : 32 ≤ s.length) {j : Nat} (h : j < 32) : (Key.ofBytes s)[j] = s[j] := by
  have hlist : (Key.ofBytes s).toList = s.take 32 := List.takeD_eq_take 0 hs
  rw [← Vector.getElem_toList (by simpa using h), List.getElem_of_eq hlist, List.getElem_take]

/-- Settles O45: a password is stretched to 32 characters at least, and the key is the first 32. -/
theorem deriveHasItsClosedForm : Obligations.DeriveHasItsClosedForm := by
  intro pw ha hlen
  have hbytes : 32 ≤ ((stretch 32 pw).map (BitVec.ofNat 8)).length := by
    rw [List.length_map, stretch_length]; omega
  refine ⟨_, derive_of_long ha hlen, fun j hj => ?_⟩
  rw [Key.getElem_ofBytes hbytes hj, List.getElem_map, (List.getElem_eq_iff _).mpr (stretch_getElem? hj)]

/-! ## Text form and splitter -/

/-- Settles O48, group by group. -/
theorem b64LengthIsFourPerThreeBytes : Obligations.B64LengthIsFourPerThreeBytes := by
  intro f
  induction f using b64Enc.induct with
  | case1 => rfl
  | case2 a => simp [b64Enc]
  | case3 a b => simp [b64Enc]
  | case4 a b c rest ih => simp only [b64Enc, List.length_cons, ih]; omega

/-- R209: the splitter's pieces in order, up to the `m`-th, are what they cover of the payload. -/
theorem flatten_pieces (payload : Bytes) (n m : Nat) :
    ((List.range m).map fun i => (payload.drop (i * n)).take n).flatten = payload.take (m * n) := by
  induction m with
  | zero => simp
  | succ m ih =>
    rw [List.range_succ, List.map_append, List.flatten_append, ih, Nat.succ_mul, List.take_add]
    simp

theorem le_chunkCount_mul {n : Nat} (len : Nat) (h : 1 ≤ n) : len ≤ chunkCount len n * n := by
  have hdiv := Nat.div_add_mod' (len + (n - 1)) n
  have hmod := Nat.mod_lt (len + (n - 1)) h
  unfold chunkCount; omega

theorem mul_lt_of_lt_chunkCount {len n i : Nat} (h : 1 ≤ n) (hi : i < chunkCount len n) : i * n < len := by
  have hmul : (i + 1) * n ≤ len + (n - 1) := (Nat.le_div_iff_mul_le h).mp hi
  rw [Nat.succ_mul] at hmul; omega

theorem split_flatten (payload : Bytes) {n : Nat} (h : 1 ≤ n) : (split payload n).flatten = payload := by
  rw [split, flatten_pieces, List.take_of_length_le (le_chunkCount_mul _ h)]

theorem split_length (payload : Bytes) (n : Nat) : (split payload n).length = chunkCount payload.length n := by
  simp [split]

/-- R209: a chunk has 1 to `n` bytes. -/
theorem length_of_mem_split {payload c : Bytes} {n : Nat} (h : 1 ≤ n) (hc : c ∈ split payload n) :
    1 ≤ c.length ∧ c.length ≤ n := by
  obtain ⟨i, hi, rfl⟩ := List.mem_map.mp hc
  have := mul_lt_of_lt_chunkCount h (List.mem_range.mp hi)
  simp only [List.length_take, List.length_drop]
  omega

/-- R209: a chunk that another follows is full. -/
theorem length_of_mem_dropLast_split {payload c : Bytes} {n : Nat} (h : 1 ≤ n)
    (hc : c ∈ (split payload n).dropLast) : c.length = n := by
  rw [List.dropLast_eq_take, split_length] at hc
  obtain ⟨i, hi, rfl⟩ := List.mem_iff_getElem.mp hc
  rw [List.length_take, split_length] at hi
  have hnext : (i + 1) * n < payload.length := mul_lt_of_lt_chunkCount h (by omega)
  rw [Nat.succ_mul] at hnext
  simp only [split, List.getElem_take, List.getElem_map, List.getElem_range, List.length_take, List.length_drop]
  omega

/-- Settles O49, from where each piece begins and ends in the payload. -/
theorem splitCutsThePayloadIntoChunks : Obligations.SplitCutsThePayloadIntoChunks :=
  fun payload _ h => ⟨split_flatten payload h, split_length payload _, fun _ => length_of_mem_split h,
    fun _ => length_of_mem_dropLast_split h⟩

end Sys2Proof.Machine
end

section
/-! The two calls as functions (R214, R218, R219): O51, O52, O53 and O54. -/

namespace Sys2Proof.Machine

/-! ## One call of `Decrypt`, block by block -/

variable {k : Key} {t : Text} {ts : List Text}

theorem decryptCall_cons_of_error {e : ErrorKind} (h : decryptBlock k t = .error e) :
    decryptCall (t :: ts) k = .error (.failed e) := by
  rw [decryptCall, h]

theorem decryptCall_cons_of_ok {chunk : Bytes} (h : decryptBlock k t = .ok chunk) :
    decryptCall (t :: ts) k = (decryptCall ts k).map (chunk ++ ·) := by
  rw [decryptCall, h]
  cases decryptCall ts k <;> rfl

/-- R214: the results of two calls, one after the other, are those of one call. -/
theorem decryptCall_append {good : List Text} {payload : Bytes} (h : decryptCall good k = .ok payload) :
    decryptCall (good ++ ts) k = (decryptCall ts k).map (payload ++ ·) := by
  induction good generalizing payload with
  | nil =>
    cases h
    cases hts : decryptCall ts k <;> simp [hts, Except.map]
  | cons g good ih =>
    cases hg : decryptBlock k g with
    | error e => rw [decryptCall_cons_of_error hg] at h; cases h
    | ok chunk =>
      rw [decryptCall_cons_of_ok hg] at h
      cases hgood : decryptCall good k with
      | error e => rw [hgood] at h; cases h
      | ok rest =>
        rw [hgood] at h
        cases h
        rw [List.cons_append, decryptCall_cons_of_ok hg, ih hgood]
        cases decryptCall ts k <;> simp [Except.map]

/-- Settles O52: the call over the good blocks goes on with the bad one. -/
theorem decryptReportsTheFirstFailure : Obligations.DecryptReportsTheFirstFailure := by
  intro k good later bad payload e hgood hbad
  rw [decryptCall_append hgood, decryptCall_cons_of_error hbad]
  rfl

/-! ## Decrypting what was encrypted -/

theorem decryptBlock_of_b64Dec_error {e : ErrorKind} (h : b64Dec t = .error e) : decryptBlock k t = .error e := by
  rw [decryptBlock, h]

theorem decryptBlock_of_b64Dec_ok {f : Bytes} (h : b64Dec t = .ok f) : decryptBlock k t = decFrame k f := by
  rw [decryptBlock, h]

theorem decryptBlock_encryptChunk (k : Key) {chunk : Bytes} {d : Draw} (hiv : d.iv.length = 16)
    (hfill : d.fill.length = padLen chunk.length - 1) : decryptBlock k (encryptChunk k chunk d) = .ok chunk := by
  rw [encryptChunk, decryptBlock_of_b64Dec_ok (b64Dec_eq_ok_iff.mpr rfl), decFrame_encChunk k hiv hfill]

theorem decryptCall_encryptChunks (k : Key) {chunks : List Bytes} {draws : List Draw} (h : drawsFit chunks draws) :
    decryptCall (List.zipWith (encryptChunk k) chunks draws) k = .ok chunks.flatten := by
  induction h with
  | nil => rfl
  | cons hd _ ih =>
    rw [List.zipWith_cons_cons, decryptCall_cons_of_ok (decryptBlock_encryptChunk k hd.1 hd.2), ih]
    rfl

/-- Settles O51, block by block. -/
theorem decryptFollowsTheOrderOfTheBlocks : Obligations.DecryptFollowsTheOrderOfTheBlocks :=
  fun k _ _ => decryptCall_encryptChunks k

/-- R210: an `Encrypt` that returns blocks had a capacity above the overhead. -/
theorem encryptCall_eq_ok_iff {payload : Bytes} {cap : Int} {draws : List Draw} {blocks : List Text} :
    encryptCall payload k cap draws = .ok blocks ↔
      48 < cap ∧ List.zipWith (encryptChunk k) (split payload (chunkSize cap)) draws = blocks := by
  obtain hcap | hcap := le_or_gt cap 48
  · simp [encryptCall_of_le_overhead payload k draws hcap, not_lt.mpr hcap]
  · simp [encryptCall_of_overhead_lt payload k draws hcap, hcap]

theorem one_le_chunkSize {cap : Int} (h : 48 < cap) : 1 ≤ chunkSize cap := by
  unfold chunkSize Config.overhead; omega

/-- R218.1: decrypting what `Encrypt` returned gives the payload. -/
theorem decryptCall_of_encryptCall {payload : Bytes} {cap : Int} {draws : List Draw} {blocks : List Text}
    (hfit : drawsFit (split payload (chunkSize cap)) draws) (h : encryptCall payload k cap draws = .ok blocks) :
    decryptCall blocks k = .ok payload := by
  obtain ⟨hcap, rfl⟩ := encryptCall_eq_ok_iff.mp h
  rw [decryptCall_encryptChunks k hfit, split_flatten payload (one_le_chunkSize hcap)]

/-- Settles O53: in the domain there is a key, and above the overhead there are blocks. -/
theorem decryptOfEncryptReturnsThePayload : Obligations.DecryptOfEncryptReturnsThePayload := by
  intro payload pw cap draws ha hlen hcap hfit
  have hblocks := encryptCall_of_overhead_lt payload (Key.ofBytes ((stretch 32 pw).map (BitVec.ofNat 8))) draws hcap
  exact ⟨_, _, derive_of_long ha hlen, hblocks, decryptCall_of_encryptCall hfit hblocks⟩

/-! ## Different draws -/

theorem b64Enc_injective : Function.Injective b64Enc := fun f g h => by
  have hdec : b64Dec (b64Enc f) = .ok g := b64Dec_eq_ok_iff.mpr h
  rw [b64Dec_eq_ok_iff.mpr rfl] at hdec
  cases hdec
  rfl

theorem encryptChunk_injective {chunk : Bytes} {d d' : Draw}
    (hd : d.iv.length = 16 ∧ d.fill.length = padLen chunk.length - 1)
    (hd' : d'.iv.length = 16 ∧ d'.fill.length = padLen chunk.length - 1)
    (h : encryptChunk k chunk d = encryptChunk k chunk d') : d = d' := by
  obtain ⟨hiv, hfill⟩ := encChunk_injective k hd.1 hd'.1 hd.2 hd'.2 (b64Enc_injective h)
  cases d
  cases d'
  cases hiv
  cases hfill
  rfl

/-- R218.3: the blocks of some chunks determine the draws they were made with. -/
theorem zipWith_encryptChunk_injective {chunks : List Bytes} {d d' : List Draw} (hd : drawsFit chunks d)
    (hd' : drawsFit chunks d')
    (h : List.zipWith (encryptChunk k) chunks d = List.zipWith (encryptChunk k) chunks d') : d = d' := by
  induction hd generalizing d' with
  | nil => cases hd'; rfl
  | cons hx _ ih =>
    cases hd' with
    | cons hx' hxs' =>
      rw [List.zipWith_cons_cons, List.zipWith_cons_cons, List.cons.injEq] at h
      rw [encryptChunk_injective hx hx' h.1, ih hxs' h.2]

/-- Settles O54: equal blocks would have equal draws, by injectivity of the text form and of the frames. -/
theorem differentDrawsGiveDifferentBlocks : Obligations.DifferentDrawsGiveDifferentBlocks := by
  intro payload k cap d d' blocks blocks' hd hd' hne hb hb'
  refine ⟨?_, decryptCall_of_encryptCall hd hb, decryptCall_of_encryptCall hd' hb'⟩
  rintro rfl
  obtain ⟨_, hz⟩ := encryptCall_eq_ok_iff.mp hb
  obtain ⟨_, hz'⟩ := encryptCall_eq_ok_iff.mp hb'
  exact hne (zipWith_encryptChunk_injective hd hd' (hz.trans hz'.symm))

end Sys2Proof.Machine
end

section
/-! Runs of the machine, and the parts of a call that both drivers are made of (R208, R212, R219). -/

namespace Sys2Proof.Machine

/-! ## Runs of any number of steps -/

/-- The machine comes from `s` to `t` in some number of steps. -/
def Reaches (s t : State) : Prop := ∃ n, runSteps n s = .next t

variable {s t u : State}

theorem Reaches.refl (s : State) : Reaches s s := ⟨0, rfl⟩

theorem Reaches.trans (h : Reaches s t) (h' : Reaches t u) : Reaches s u := by
  obtain ⟨m, hm⟩ := h
  obtain ⟨n, hn⟩ := h'
  exact ⟨m + n, (runSteps_add m n hm).trans hn⟩

theorem Reaches.of_step (h : step s = .next t) : Reaches s t := ⟨1, runSteps_succ 0 h⟩

theorem Reaches.step_trans (h : step s = .next t) (h' : Reaches t u) : Reaches s u := (Reaches.of_step h).trans h'

/-! ## The parts of a call -/

variable {rest : List HostItem}

theorem step_cmdItem {i : Instr} (hs : s.script = cmdItem i :: rest) : step s = exec i s :=
  (step_cmd hs).trans (cmd_encode i s)

/-- R51: PUSHes of bytes that fit append them all. -/
theorem reaches_of_pushItems {bs : Bytes} (hs : s.script = pushItems bs ++ rest)
    (hroom : s.ibuf.length + bs.length ≤ Config.params.ibufCap) :
    Reaches s { s with ibuf := s.ibuf ++ bs, script := rest } := by
  induction bs generalizing s with
  | nil =>
    have hsame : s = { s with ibuf := s.ibuf ++ [], script := rest } := by
      rw [List.append_nil]
      exact State.ext rfl rfl rfl rfl rfl rfl hs rfl
    exact hsame ▸ Reaches.refl s
  | cons b bs ih =>
    rw [List.length_cons] at hroom
    have hpushes := ih (s := { s with ibuf := s.ibuf ++ [b], script := pushItems bs ++ rest }) rfl
      (by rw [List.length_append, List.length_singleton]; omega)
    rw [List.append_assoc] at hpushes
    exact .step_trans (step_push_of_lt hs (by omega)) hpushes

/-- The machine between two chunks or blocks of a call: the key loaded, no error, `IBUF` empty. -/
def State.inCall (k : Key) (obuf : Bytes) (r : Rng) (items : List HostItem) (received : List Answer) : State where
  key := k
  keyv := true
  errcode := 0
  ibuf := []
  obuf := obuf
  rng := r
  script := items
  received := received

/-- R282: the machine after a call: the engine reset and the script done. -/
def State.callOver (r : Rng) (received : List Answer) : State :=
  { State.reset with rng := r, received := received }

/-- R215: the CLR a call ends with. -/
theorem reaches_callOver_of_clr (hs : s.script = [cmdItem .clr]) : Reaches s (.callOver s.rng s.received) := by
  refine .of_step ((step_cmdItem hs).trans ((execClr_eq s).trans ?_))
  rw [State.retire_eq (s := s.cleared) hs]
  rfl

/-- R54: a key read out as bytes and loaded again. -/
theorem Key.ofBytes_toList (k : Key) : Key.ofBytes k.toList = k :=
  Vector.toList_inj.mp (Key.toList_ofBytes k.length_toList)

/-- R208, R212: a call begins with CLR, the PUSHes of its key and KEYLD. -/
theorem reaches_inCall_of_loadKeyItems {k : Key} (hs : s.script = loadKeyItems k ++ rest) :
    Reaches s (.inCall k [] s.rng rest s.received) := by
  have hclr : step s = .next { s.cleared with script := pushItems k.toList ++ cmdItem .keyld :: rest } := by
    rw [step_cmdItem hs, exec, execClr_eq, State.retire, State.cleared_script, hs, loadKeyItems, List.cons_append,
      List.tail_cons, List.append_assoc, List.singleton_append]
  have hpush := reaches_of_pushItems (bs := k.toList) (rest := cmdItem .keyld :: rest)
    (s := { s.cleared with script := pushItems k.toList ++ cmdItem .keyld :: rest }) rfl (by simp [Config.params])
  have hkeyld : step { s.cleared with ibuf := k.toList, script := cmdItem .keyld :: rest } =
      .next (.inCall k [] s.rng rest s.received) := by
    rw [step_cmdItem rfl, exec, execKeyld_of_length rfl k.length_toList]
    simp only [Key.ofBytes_toList]
    rfl
  exact .step_trans hclr (hpush.trans (.of_step hkeyld))

/-- What a DRAIN of `bs` returns. -/
def drainAnswers (bs : Bytes) : List Answer := .word bs.length :: bs.map .byte

variable {k : Key} {obuf : Bytes} {r : Rng} {received : List Answer}

/-- R85: DRAIN empties `OBUF`. -/
theorem reaches_of_drain :
    Reaches (.inCall k obuf r (.drain :: rest) received) (.inCall k [] r rest (received ++ drainAnswers obuf)) :=
  ⟨_, drainReturnsAllOfObuf _ rest rfl⟩

end Sys2Proof.Machine
end

section
/-! The `Encrypt` driver on the machine (R208, R219): O55. -/

namespace Sys2Proof.Machine

variable {k : Key} {r : Rng} {rest : List HostItem} {received : List Answer}

/-- R208: one chunk: its frame, made with the draws of its ENC, is received and `OBUF` left empty. -/
theorem reaches_of_encryptChunkItems {chunk : Bytes} (hlen : chunk.length ≤ Config.params.ibufCap) :
    ∃ (d : Draw) (r' : Rng), (d.iv.length = 16 ∧ d.fill.length = padLen chunk.length - 1) ∧
      r.Answers (d.iv ++ d.fill) r' ∧
      Reaches (.inCall k [] r (encryptChunkItems chunk ++ rest) received)
        (.inCall k [] r' rest (received ++ drainAnswers (encChunk k chunk d.iv d.fill))) := by
  obtain ⟨iv, fill, r', hiv, hfill, hr, henc⟩ := encrypt_eq_frame_of_draws
    { State.inCall k [] r (cmdItem .enc :: .drain :: rest) received with ibuf := chunk }
  refine ⟨⟨iv, fill⟩, r', ⟨hiv, hfill⟩, hr, ?_⟩
  have hpush := reaches_of_pushItems (bs := chunk) (rest := cmdItem .enc :: .drain :: rest)
    (s := .inCall k [] r (encryptChunkItems chunk ++ rest) received)
    (by simp [State.inCall, encryptChunkItems]) (by simpa [State.inCall] using hlen)
  have hstep : step { State.inCall k [] r (cmdItem .enc :: .drain :: rest) received with ibuf := chunk } =
      .next (.inCall k (encChunk k chunk iv fill) r' (.drain :: rest) received) := by
    rw [step_cmdItem rfl, exec, execEnc, encIn_of_ready (encReady_of_obuf_nil hlen rfl rfl rfl), henc]
    rfl
  exact hpush.trans (.step_trans hstep reaches_of_drain)

/-- R208: all the chunks, in order. -/
theorem reaches_of_encryptChunks {chunks : List Bytes} (hlen : ∀ c ∈ chunks, c.length ≤ Config.params.ibufCap) :
    ∃ (draws : List Draw) (r' : Rng), drawsFit chunks draws ∧ r.Answers (draws.flatMap fun d => d.iv ++ d.fill) r' ∧
      Reaches (.inCall k [] r (chunks.flatMap encryptChunkItems ++ rest) received)
        (.inCall k [] r' rest (received ++
          (List.zipWith (fun c d => encChunk k c d.iv d.fill) chunks draws).flatMap drainAnswers)) := by
  induction chunks generalizing r received with
  | nil => exact ⟨[], r, .nil, rfl, by simpa using Reaches.refl _⟩
  | cons c chunks ih =>
    rw [List.forall_mem_cons] at hlen
    obtain ⟨d, r₁, hd, hr₁, hrun₁⟩ :=
      reaches_of_encryptChunkItems (k := k) (r := r) (rest := chunks.flatMap encryptChunkItems ++ rest)
        (received := received) hlen.1
    obtain ⟨draws, r', hfit, hr', hrun⟩ := ih (r := r₁)
      (received := received ++ drainAnswers (encChunk k c d.iv d.fill)) hlen.2
    refine ⟨d :: draws, r', .cons hd hfit, hr₁.append hr', ?_⟩
    rw [List.append_assoc] at hrun
    rw [List.flatMap_cons, List.append_assoc]
    exact hrun₁.trans hrun

theorem cutAtWords_bytes_append (bs : Bytes) (as : List Answer) :
    cutAtWords (bs.map .byte ++ as) = (bs ++ (cutAtWords as).1, (cutAtWords as).2) := by
  induction bs with
  | nil => rfl
  | cons b bs ih => rw [List.map_cons, List.cons_append, cutAtWords, ih]; rfl

/-- R208: the host finds the frames between the counts. -/
theorem cutAtWords_drainAnswers (frames : List Bytes) : cutAtWords (frames.flatMap drainAnswers) = ([], frames) := by
  induction frames with
  | nil => rfl
  | cons f frames ih =>
    rw [List.flatMap_cons, drainAnswers, List.cons_append, cutAtWords, cutAtWords_bytes_append, ih, List.append_nil]

/-- R208: the frames received, written as text, are the blocks of the reference function. -/
theorem encryptResult_drainAnswers (k : Key) (chunks : List Bytes) (draws : List Draw) :
    encryptResult ((List.zipWith (fun c d => encChunk k c d.iv d.fill) chunks draws).flatMap drainAnswers) =
      List.zipWith (encryptChunk k) chunks draws := by
  rw [encryptResult, cutAtWords_drainAnswers, List.map_zipWith]
  rfl

/-- R208: what the driver has checked when it starts, and the script it then runs. -/
theorem startEncrypt_eq_ok {p : Params} {payload : Bytes} {cap : Int} {items : List HostItem}
    (h : startEncrypt p payload k cap = .ok items) :
    48 < cap ∧ chunkSize cap ≤ p.ibufCap ∧ items = encryptItems k (split payload (chunkSize cap)) := by
  unfold startEncrypt at h
  split_ifs at h with hcap hsize
  cases h
  exact ⟨not_le.mp hcap, not_lt.mp hsize, rfl⟩

/-- Settles O55: the key is loaded, the chunks go through one by one, and CLR ends the call. -/
theorem encryptDriverComputesTheReference : Obligations.EncryptDriverComputesTheReference := by
  intro s payload k cap items hstart
  obtain ⟨hcap, hsize, rfl⟩ := startEncrypt_eq_ok hstart
  have hlen : ∀ c ∈ split payload (chunkSize cap), c.length ≤ Config.params.ibufCap :=
    fun c hc => (length_of_mem_split (one_le_chunkSize hcap) hc).2.trans hsize
  obtain ⟨draws, r, hfit, hr, hrun⟩ :=
    reaches_of_encryptChunks (k := k) (r := s.rng) (rest := [cmdItem .clr]) (received := s.received) hlen
  have hload := reaches_inCall_of_loadKeyItems (k := k) (s := s.begin (encryptItems k (split payload (chunkSize cap))))
    (by rw [State.begin_script, encryptItems, List.append_assoc])
  obtain ⟨n, hn⟩ := (hload.trans hrun).trans (reaches_callOver_of_clr rfl)
  refine ⟨_, _, draws, ⟨n, hn, rfl, ⟨rfl, rfl, rfl, rfl, rfl⟩, rfl⟩, hfit, hr, ?_⟩
  rw [encryptCall_of_overhead_lt payload k draws hcap, encryptResult_drainAnswers]

end Sys2Proof.Machine
end

section
/-! The `Decrypt` driver on the machine (R212, R219): O56. -/

namespace Sys2Proof.Machine

/-! ## STATUS, and what the host does on reading it -/

variable {s : State} {rest : List HostItem}

/-- R26, R212: the error field a host reads in `STATUS` is `ERRCODE`. -/
theorem statusError_register_zero (s : State) : statusError (s.register 0) = s.errcode.toNat := by
  have hkeyv := s.keyv.toNat_le
  have herr := s.errcode.isLt
  rw [State.register_zero, State.status_toNat]
  unfold statusError; omega

theorem step_stopOnError_of_clear (hs : s.script = .stopOnError :: rest) (he : s.errcode = 0) :
    step s = .next { s with script := rest, received := s.received ++ [.word (s.register 0)] } := by
  rw [step_stopOnError hs, stopOnError, if_neg (by rw [statusError_register_zero, he]; decide), hs]
  rfl

theorem step_stopOnError_of_error (hs : s.script = .stopOnError :: rest) (he : s.errcode ≠ 0) :
    step s = .next { s with script := [cmdItem .clr], received := s.received ++ [.word (s.register 0)] } := by
  rw [step_stopOnError hs, stopOnError, if_pos (by rw [statusError_register_zero]; exact BitVec.toNat_ne_iff_ne.mpr he)]
  rfl

/-! ## One block -/

variable {k : Key} {obuf f : Bytes} {r : Rng} {received : List Answer}

/-- R212: a frame pushed, before its DEC. -/
theorem reaches_of_pushed_frame (hlen : f.length ≤ Config.params.ibufCap) :
    Reaches (.inCall k obuf r (pushItems f ++ rest) received)
      { State.inCall k obuf r rest received with ibuf := f } :=
  reaches_of_pushItems (s := .inCall k obuf r (pushItems f ++ rest) received) rfl (by simpa [State.inCall] using hlen)

/-- R212: a frame that decrypts, where there is room: its chunk is appended and `STATUS` shows no error. -/
theorem reaches_of_good_frame {chunk : Bytes} (hlen : f.length ≤ Config.params.ibufCap)
    (hroom : obuf.length + (f.length - 17) ≤ Config.params.obufCap) (hd : decFrame k f = .ok chunk) :
    ∃ st, statusError st = 0 ∧
      Reaches (.inCall k obuf r (pushItems f ++ (cmdItem .dec :: .stopOnError :: rest)) received)
        (.inCall k (obuf ++ chunk) r rest (received ++ [.word st])) := by
  have hdec : step { State.inCall k obuf r (cmdItem .dec :: .stopOnError :: rest) received with ibuf := f } =
      .next (.inCall k (obuf ++ chunk) r (.stopOnError :: rest) received) := by
    rw [step_cmdItem rfl, exec, execDec, decIn_of_ready ⟨rfl, rfl, hroom⟩ hd]
    rfl
  exact ⟨_, statusError_register_zero _, (reaches_of_pushed_frame hlen).trans
    (.step_trans hdec (.of_step (step_stopOnError_of_clear rfl rfl)))⟩

/-- R212: a frame that does not decrypt ends the call; `STATUS` shows its failure. -/
theorem reaches_of_bad_frame {e : ErrorKind} (hlen : f.length ≤ Config.params.ibufCap)
    (hd : decFrame k f = .error e) :
    ∃ st, statusError st = e.code.toNat ∧
      Reaches (.inCall k obuf r (pushItems f ++ (cmdItem .dec :: .stopOnError :: rest)) received)
        (.callOver r (received ++ [.word st])) := by
  have hdec : step { State.inCall k obuf r (cmdItem .dec :: .stopOnError :: rest) received with ibuf := f } =
      .next { State.inCall k obuf r (.stopOnError :: rest) received with ibuf := f, errcode := e.code } := by
    rw [step_cmdItem rfl, exec, execDec, decIn_of_decFrame_error rfl rfl hd]
    rfl
  exact ⟨_, statusError_register_zero _, (reaches_of_pushed_frame hlen).trans
    (.step_trans hdec (.step_trans (step_stopOnError_of_error rfl e.code_ne_zero) (reaches_callOver_of_clr rfl)))⟩

/-- R212, R250: the host names the failure that `DecFrame` raised. -/
theorem statusFailure_of_decFrame_error {e : ErrorKind} (h : decFrame k f = .error e) :
    statusFailure e.code.toNat = .failed e := by
  obtain rfl | rfl := decFrame_error h <;> rfl

/-! ## How the host reads what it received -/

variable {t : Text} {ts : List Text} {de : Bool} {answers : List Answer}

theorem rawLength_of_ok (h : b64Dec t = .ok f) : rawLength t = f.length := by rw [rawLength, h]

theorem decryptBlockItems_cons_of_error {e : ErrorKind} (h : b64Dec t = .error e) :
    decryptBlockItems de (t :: ts) = [cmdItem .clr] := by
  rw [decryptBlockItems, h]

theorem decryptBlockItems_cons_of_ok (h : b64Dec t = .ok f) :
    decryptBlockItems de (t :: ts) =
      pushItems f ++ (cmdItem .dec :: .stopOnError :: ((if de then [.drain] else []) ++ decryptBlockItems de ts)) := by
  rw [decryptBlockItems, h]
  simp [decryptFrameItems]

theorem decryptResult_cons_of_b64Dec_error {e : ErrorKind} (h : b64Dec t = .error e) :
    decryptResult de (t :: ts) answers = .error (.failed e) := by
  unfold decryptResult
  rw [h]

theorem decryptResult_cons_of_status_error {st : Nat} (h : b64Dec t = .ok f) (hst : statusError st ≠ 0) :
    decryptResult de (t :: ts) (.word st :: answers) = .error (statusFailure (statusError st)) := by
  unfold decryptResult
  rw [h]
  exact if_pos hst

theorem decryptResult_cons_of_status_clear {st : Nat} (h : b64Dec t = .ok f) (hst : statusError st = 0) :
    decryptResult false (t :: ts) (.word st :: answers) = decryptResult false ts answers := by
  conv_lhs => unfold decryptResult
  rw [h]
  exact if_neg (not_not.mpr hst)

@[simp] theorem answerBytes_map_byte (bs : Bytes) : answerBytes (bs.map .byte) = bs := by
  induction bs with
  | nil => rfl
  | cons b bs ih => rw [List.map_cons, answerBytes, ih]

theorem decryptResult_cons_of_drained {st : Nat} (h : b64Dec t = .ok f) (hst : statusError st = 0) (bs : Bytes) :
    decryptResult true (t :: ts) (.word st :: (drainAnswers bs ++ answers)) =
      (decryptResult true ts answers).map (bs ++ ·) := by
  have htake : (bs.map Answer.byte ++ answers).take bs.length = bs.map .byte := List.take_left' (List.length_map _)
  have hdrop : (bs.map Answer.byte ++ answers).drop bs.length = answers := List.drop_left' (List.length_map _)
  conv_lhs => unfold decryptResult
  rw [h, drainAnswers]
  simp only [hst, ne_eq, not_true_eq_false, ↓reduceIte, List.cons_append, htake, hdrop, answerBytes_map_byte]
  cases decryptResult true ts answers <;> rfl

/-! ## All the blocks -/

/-- R212: what the precondition of a call and the driver's choice when to drain leave for the blocks still to come:
every frame fits `IBUF`, and `OBUF` is empty if it is drained each time, and otherwise has room for all the frames. -/
structure BlocksFit (de : Bool) (obuf : Bytes) (ts : List Text) : Prop where
  frame : ∀ t ∈ ts, rawLength t ≤ Config.params.ibufCap
  drained : de = true → obuf = []
  room : de = false → obuf.length + (ts.map rawLength).sum ≤ Config.params.obufCap

/-- R212: there is room for the chunk of the next block. -/
theorem BlocksFit.dec_room (h : BlocksFit de obuf (t :: ts)) :
    obuf.length + (rawLength t - 17) ≤ Config.params.obufCap := by
  have hframe := h.frame t List.mem_cons_self
  have hcap := params_obufCap_ge
  cases de with
  | true => rw [h.drained rfl, List.length_nil]; omega
  | false =>
    have hroom := h.room rfl
    rw [List.map_cons, List.sum_cons] at hroom
    omega

theorem BlocksFit.tail_of_drained (h : BlocksFit true obuf (t :: ts)) : BlocksFit true [] ts :=
  ⟨fun u hu => h.frame u (List.mem_cons_of_mem t hu), fun _ => rfl, fun hde => Bool.noConfusion hde⟩

theorem BlocksFit.tail_of_kept {chunk : Bytes} (h : BlocksFit false obuf (t :: ts))
    (hlen : chunk.length ≤ rawLength t) : BlocksFit false (obuf ++ chunk) ts := by
  refine ⟨fun u hu => h.frame u (List.mem_cons_of_mem t hu), fun hde => Bool.noConfusion hde, fun _ => ?_⟩
  have hroom := h.room rfl
  rw [List.map_cons, List.sum_cons] at hroom
  rw [List.length_append]; omega

/-- R212, R219: with the blocks `ts` still to come and `obuf` recovered but not yet drained, the call ends in the reset
state, and the host reads out of the answers what the reference function gives, behind `obuf`. -/
def BlocksRun (de : Bool) (k : Key) (r : Rng) (obuf : Bytes) (received : List Answer) (ts : List Text) : Prop :=
  ∃ answers, Reaches (.inCall k obuf r (decryptBlockItems de ts) received) (.callOver r (received ++ answers)) ∧
    decryptResult de ts answers = (decryptCall ts k).map (obuf ++ ·)

/-- What is left in `OBUF` is drained. -/
theorem blocksRun_nil (h : BlocksFit de obuf []) : BlocksRun de k r obuf received [] := by
  cases de with
  | true =>
    obtain rfl := h.drained rfl
    refine ⟨[], ?_, rfl⟩
    rw [List.append_nil]
    exact reaches_callOver_of_clr rfl
  | false =>
    refine ⟨drainAnswers obuf, reaches_of_drain.trans (reaches_callOver_of_clr rfl), ?_⟩
    exact congrArg Except.ok ((answerBytes_map_byte obuf).trans (List.append_nil obuf).symm)

/-- A block that does not decode ends the call before its frame is pushed. -/
theorem blocksRun_cons_of_b64Dec_error {e : ErrorKind} (hb : b64Dec t = .error e) :
    BlocksRun de k r obuf received (t :: ts) := by
  refine ⟨[], ?_, ?_⟩
  · rw [decryptBlockItems_cons_of_error hb, List.append_nil]
    exact reaches_callOver_of_clr rfl
  · rw [decryptResult_cons_of_b64Dec_error hb, decryptCall_cons_of_error (decryptBlock_of_b64Dec_error hb)]
    rfl

/-- A frame that does not decrypt ends the call once the host has read `STATUS`. -/
theorem blocksRun_cons_of_decFrame_error {e : ErrorKind} (hlen : f.length ≤ Config.params.ibufCap)
    (hb : b64Dec t = .ok f) (hd : decFrame k f = .error e) : BlocksRun de k r obuf received (t :: ts) := by
  obtain ⟨st, hst, hrun⟩ := reaches_of_bad_frame (obuf := obuf) (r := r) (received := received)
    (rest := (if de then [.drain] else []) ++ decryptBlockItems de ts) hlen hd
  have hne : statusError st ≠ 0 := hst ▸ BitVec.toNat_ne_iff_ne.mpr e.code_ne_zero
  refine ⟨[.word st], by rwa [decryptBlockItems_cons_of_ok hb], ?_⟩
  rw [decryptResult_cons_of_status_error hb hne, hst, statusFailure_of_decFrame_error hd,
    decryptCall_cons_of_error ((decryptBlock_of_b64Dec_ok hb).trans hd)]
  rfl

theorem map_append_append (o : Except HostStop Bytes) (a b : Bytes) :
    o.map ((a ++ b) ++ ·) = (o.map (b ++ ·)).map (a ++ ·) := by
  cases o <;> simp [Except.map]

theorem map_nil_append (o : Except HostStop Bytes) : o.map (([] : Bytes) ++ ·) = o := by
  cases o <;> rfl

/-- A chunk that is drained at once is received before the other blocks. -/
theorem blocksRun_cons_of_drained {chunk : Bytes} (h : BlocksFit true obuf (t :: ts)) (hb : b64Dec t = .ok f)
    (hd : decFrame k f = .ok chunk) (ih : ∀ received, BlocksRun true k r [] received ts) :
    BlocksRun true k r obuf received (t :: ts) := by
  obtain rfl := h.drained rfl
  have hraw := rawLength_of_ok hb
  obtain ⟨st, hst, hrun⟩ := reaches_of_good_frame (r := r) (received := received)
    (rest := .drain :: decryptBlockItems true ts) (hraw ▸ h.frame t List.mem_cons_self) (hraw ▸ h.dec_room) hd
  obtain ⟨answers, hrest, hresult⟩ := ih (received ++ [.word st] ++ drainAnswers chunk)
  have hanswers : received ++ [.word st] ++ drainAnswers chunk ++ answers =
      received ++ .word st :: (drainAnswers chunk ++ answers) := by simp
  rw [hanswers] at hrest
  refine ⟨.word st :: (drainAnswers chunk ++ answers), ?_, ?_⟩
  · rw [decryptBlockItems_cons_of_ok hb]
    exact hrun.trans (reaches_of_drain.trans hrest)
  · rw [decryptResult_cons_of_drained hb hst, hresult, map_nil_append, map_nil_append,
      decryptCall_cons_of_ok ((decryptBlock_of_b64Dec_ok hb).trans hd)]

/-- A chunk that is kept stands in `OBUF` before those of the other blocks. -/
theorem blocksRun_cons_of_kept {chunk : Bytes} (h : BlocksFit false obuf (t :: ts)) (hb : b64Dec t = .ok f)
    (hd : decFrame k f = .ok chunk) (ih : ∀ received, BlocksRun false k r (obuf ++ chunk) received ts) :
    BlocksRun false k r obuf received (t :: ts) := by
  have hraw := rawLength_of_ok hb
  obtain ⟨st, hst, hrun⟩ := reaches_of_good_frame (r := r) (received := received)
    (rest := decryptBlockItems false ts) (hraw ▸ h.frame t List.mem_cons_self) (hraw ▸ h.dec_room) hd
  obtain ⟨answers, hrest, hresult⟩ := ih (received ++ [.word st])
  rw [List.append_assoc, List.singleton_append] at hrest
  refine ⟨.word st :: answers, ?_, ?_⟩
  · rw [decryptBlockItems_cons_of_ok hb]
    exact hrun.trans hrest
  · rw [decryptResult_cons_of_status_clear hb hst, hresult, map_append_append,
      decryptCall_cons_of_ok ((decryptBlock_of_b64Dec_ok hb).trans hd)]

/-- R212: the blocks go through one by one, up to the first that fails. -/
theorem blocksRun_of_blocksFit (h : BlocksFit de obuf ts) : BlocksRun de k r obuf received ts := by
  induction ts generalizing obuf received with
  | nil => exact blocksRun_nil h
  | cons t ts ih =>
    cases hb : b64Dec t with
    | error e => exact blocksRun_cons_of_b64Dec_error hb
    | ok f =>
      have hraw := rawLength_of_ok hb
      cases hd : decFrame k f with
      | error e => exact blocksRun_cons_of_decFrame_error (hraw ▸ h.frame t List.mem_cons_self) hb hd
      | ok chunk =>
        have hchunk := decFrame_ok_length hd
        cases de with
        | true => exact blocksRun_cons_of_drained h hb hd fun _ => ih h.tail_of_drained
        | false => exact blocksRun_cons_of_kept h hb hd fun _ => ih (h.tail_of_kept (by omega))

/-- R212: what the driver has checked when it starts, and the script it then runs. -/
theorem startDecrypt_eq_ok {p : Params} {blocks : List Text} {items : List HostItem}
    (h : startDecrypt p blocks k = .ok items) :
    (∀ t ∈ blocks, rawLength t ≤ p.ibufCap) ∧ items = decryptItems (drainsEach p blocks) k blocks := by
  unfold startDecrypt at h
  split_ifs at h with hlong
  cases h
  simp only [List.any_eq_true, decide_eq_true_eq, not_exists, not_and, not_lt] at hlong
  exact ⟨hlong, rfl⟩

/-- R212: the driver's choice when to drain makes the blocks fit. -/
theorem blocksFit_drainsEach {blocks : List Text} (h : ∀ t ∈ blocks, rawLength t ≤ Config.params.ibufCap) :
    BlocksFit (drainsEach Config.params blocks) [] blocks := by
  refine ⟨h, fun _ => rfl, fun hde => ?_⟩
  rw [List.length_nil, Nat.zero_add]
  exact not_lt.mp (of_decide_eq_false hde)

/-- Settles O56: the key is loaded, the blocks go through one by one, and the answers are read as the reference
function's result. -/
theorem decryptDriverComputesTheReference : Obligations.DecryptDriverComputesTheReference := by
  intro s blocks k items hstart
  obtain ⟨hlen, rfl⟩ := startDecrypt_eq_ok hstart
  have hload := reaches_inCall_of_loadKeyItems (k := k)
    (s := s.begin (decryptItems (drainsEach Config.params blocks) k blocks)) rfl
  obtain ⟨answers, hrun, hresult⟩ := blocksRun_of_blocksFit (k := k) (r := s.rng) (received := s.received)
    (blocksFit_drainsEach hlen)
  obtain ⟨n, hn⟩ := hload.trans hrun
  refine ⟨_, answers, ⟨n, hn, rfl, ⟨rfl, rfl, rfl, rfl, rfl⟩, rfl⟩, rfl, hresult.trans (map_nil_append _)⟩

end Sys2Proof.Machine
end
